-- ==== Sys2Proof/Word.lean ====
section
/-! DEFINITION. The two value widths of the machine: the Word (`00_scope.md` rules R6 and R8) and the byte of
the instruction stream (rule R8). Both are what the spec treats as bits. -/

namespace Sys2Proof

/-- A Word: "fixed-width 64-bit unsigned integer; the only value type manipulated by the machine" (R6). Bit 63 is
the most significant (R8, D1). -/
abbrev Word := BitVec 64

/-- A byte of the program's byte sequence, an integer 0 to 255 (R8). -/
abbrev Byte := BitVec 8

end Sys2Proof
end

