-- ==== Sys2Proof/Syntax.lean ====
section
/-! DEFINITION. The instruction catalogue: the 21 variants of `30_encoding.md` rule R72, of which only `Set` has a
field. Every value of `Instr` is a legal instruction (R74: every Word is a legal literal). -/

namespace Sys2Proof

/-- One constructor per row of the opcode map, in the map's order (R72). -/
inductive Instr where
  /-- 0x00, R100. -/
  | nop
  /-- 0x01, R101. -/
  | halt
  /-- 0x02, R110. -/
  | load
  /-- 0x03, R111. -/
  | store
  /-- 0x04, R120. -/
  | push
  /-- 0x05, R121. -/
  | pop
  /-- 0x06 with its 8-byte literal, R122. -/
  | set (w : Word)
  /-- 0x07, reserved, R130. -/
  | read
  /-- 0x08, reserved, R131. -/
  | write
  /-- 0x09, R102. -/
  | jump
  /-- 0x0A, reserved, R132. -/
  | jumpIf
  /-- 0x0B, R141. -/
  | add
  /-- 0x0C, R142. -/
  | sub
  /-- 0x0D, R143. -/
  | mul
  /-- 0x0E, R144. -/
  | div
  /-- 0x0F, R145. -/
  | mod
  /-- 0x10, R160. -/
  | cmp
  /-- 0x11, R161. -/
  | and
  /-- 0x12, R162. -/
  | or
  /-- 0x13, R163. -/
  | not
  /-- 0x14, R164. -/
  | xor
deriving DecidableEq, Repr

/-- A Program: "an ordered, immutable sequence of decoded Instructions", indexed by position from 0 (R32). -/
abbrev Program := List Instr

end Sys2Proof
end

