-- ==== Sys2Proof/Config.lean ====
section
/-! DEFINITION. The configuration of the machine, in one record (`00_scope.md` rules R6 and R7): `Config` holds the
parameters that the spec settles and those that it leaves OPEN. Their values stand in Machine/Params.lean, each once.
Below it, the two free values and the decoder's error type (which a free value mentions). -/

namespace Sys2Proof

/-- The kinds of DecodeError, in the spec's order (`60_exceptions.md` rule R200). -/
inductive DecodeErrorKind where
  /-- `decode_one` was given an empty slice; unreachable through `decode` (R77). -/
  | noInput
  /-- The byte at an opcode position is 0x15 to 0xFF. -/
  | unrecognizedOpcode
  /-- Opcode 0x06 with fewer than 8 bytes after it. -/
  | incompleteLiteral
  /-- A payload-free opcode in a slice of several bytes; unreachable through `decode` (R77). -/
  | unexpectedPayload
deriving DecidableEq, Repr, Inhabited

/-- A DecodeError: "a pair of a kind and a byte offset" (R200). -/
structure DecodeError where
  kind : DecodeErrorKind
  offset : Nat
deriving DecidableEq, Repr

/-- The opcode byte of every variant, one field a variant (R7, `30_encoding.md` rule R72). -/
structure OpcodeMap where
  nop : Byte
  halt : Byte
  load : Byte
  store : Byte
  push : Byte
  pop : Byte
  set : Byte
  read : Byte
  write : Byte
  jump : Byte
  jumpIf : Byte
  add : Byte
  sub : Byte
  mul : Byte
  div : Byte
  mod : Byte
  cmp : Byte
  and : Byte
  or : Byte
  not : Byte
  xor : Byte
deriving DecidableEq, Repr

/-- The parameters the spec settles (R6), and the opcode bytes that R7 puts beside them. The model says
the four widths by its types too (`Word`, `Byte`), and Laws/Params.lean proves that the two agree. -/
structure SettledParams where
  /-- `WORD_BITS`: the width of a Word. -/
  wordBits : Nat
  /-- `STACK_CAP`: the greatest stack depth. -/
  stackCap : Nat
  /-- `NUM_REGS`: the number of registers, `Arch.reg` alone. -/
  numRegs : Nat
  /-- `PC_BITS`: the width of the program counter. -/
  pcBits : Nat
  /-- `ADDR_BITS`: the width of a memory address. -/
  addrBits : Nat
  /-- `OPCODE_BITS`: the width of an opcode. -/
  opcodeBits : Nat
  /-- `NUM_OPCODES`: the number of opcodes of the catalogue. -/
  numOpcodes : Nat
  /-- `LITERAL_BYTES`: the payload length of the literal-load opcode. -/
  literalBytes : Nat
  /-- The opcode byte values (R7). -/
  opcodes : OpcodeMap
deriving DecidableEq, Repr

/-- The parameters the spec leaves OPEN (R6). They are fixed for a machine; they stand in its state so that every
statement about a state holds for every value of them (log 1 to 3). -/
structure OpenParams where
  /-- `HALT_PC_DELTA`: what Halt adds to pc, 0 or 1 (R6, R101, D4). -/
  haltPcDelta : Fin 2
  /-- `PROG_MAX_LEN`: "at most 2^64 - 1", which its type says (R6, R23, D6). -/
  progMaxLen : Word
  /-- `INPUT_MAX_BYTES`: the greatest input length, if there is one (R6, D6). -/
  inputMaxBytes : Option Nat
deriving DecidableEq, Repr

/-- "A model should hold them in one configuration record" (R6): every parameter of R6, and the opcode bytes (R7). -/
structure Config extends SettledParams, OpenParams
deriving DecidableEq, Repr

/-- FREE VALUE: what `pc + 1` is at pc = 2^64 - 1. "The source does not say ... not choose wrap-around or a fault"
(R23, N7); the case never arises in a run (log 4, safe). -/
opaque Config.pcAfterTop : Word

/-- FREE VALUE: what `decode_one` answers for opcode 0x06 with more than 8 bytes after it, "left undefined" (R76,
N4, D18); `decode` never asks (log 5, safe). -/
opaque Config.longLiteralSlice : List Byte → Except DecodeErrorKind Instr

end Sys2Proof
end

