-- ==== Sys2Proof/Machine/Params.lean ====
section
/-! DEFINITION. The values of the configuration (`00_scope.md` rules R6 and R7), each written once, in a file where a
later correction is one edit: the settled ones in `Config.settled`, what reset has for the OPEN ones in
`OpenParams.default`. The stack controller, the decoder, the encoder and the error table all read them here. -/

namespace Sys2Proof

/-- The settled parameters at the values of R6's table, with the opcode bytes of the catalogue
(`30_encoding.md` rule R72). They "have not been audited"; the spec takes them as normative (R7, D22, log 15). -/
def Config.settled : SettledParams where
  wordBits := 64
  stackCap := 65535
  numRegs := 1
  pcBits := 64
  addrBits := 64
  opcodeBits := 8
  numOpcodes := 21
  literalBytes := 8
  opcodes :=
    { nop := 0x00, halt := 0x01, load := 0x02, store := 0x03, push := 0x04, pop := 0x05, set := 0x06,
      read := 0x07, write := 0x08, jump := 0x09, jumpIf := 0x0A, add := 0x0B, sub := 0x0C, mul := 0x0D,
      div := 0x0E, mod := 0x0F, cmp := 0x10, and := 0x11, or := 0x12, not := 0x13, xor := 0x14 }

/-- The OPEN parameters at reset: `HALT_PC_DELTA` at the spec's default 0 (R6); DESIGN CHOICE: the widest value the
spec allows for the two others (unsafe only for a claim about reset's own parameters; log 1 to 3). -/
def OpenParams.default : OpenParams :=
  { haltPcDelta := 0, progMaxLen := BitVec.allOnes 64, inputMaxBytes := none }

/-- The configuration of the machine whose OPEN parameters are `o` (R6). -/
def Config.of (o : OpenParams) : Config :=
  { toSettledParams := Config.settled, toOpenParams := o }

/-- `STACK_CAP`: "capacity bounded at 65535 elements" (R6, R28). -/
def Machine.stackCap : Nat := Config.settled.stackCap

end Sys2Proof
end

