-- ==== Sys2Proof/Machine/State.lean ====
section
/-! DEFINITION. The state of the block as plain data: the spec's State of four fields (`Arch`, `10_state.md` rules
R20 to R31), the Program store (R32), the engine's phase (R35, R180), the run mode and the trace output (R188), and
the parameters of `00_scope.md` rule R6. Below them the two ways a step can stop, and the state after reset. -/

namespace Sys2Proof.Machine

/-- The memory subsystem's content. `cells` lists the non-zero Words by rising address; `keys` lists the addresses
written since reset, rising (R31: a Store of 0 adds a key and no cell), on top of the keys that a launch State
brings (DESIGN CHOICE, log 20). -/
structure Memory where
  cells : List (Nat × Word)
  keys : List Nat
deriving DecidableEq, Repr

/-- What an address that no cell lists reads as: "reading an absent key yields Word zero" (R30). -/
def Memory.unlisted : Word := 0

/-- The canonical form: cell addresses strictly rising Word addresses, no cell holding what an unlisted address reads
as, keys strictly rising Word addresses, and every cell's address a key. -/
abbrev Memory.wf (m : Memory) : Prop :=
  m.cells.Pairwise (fun c d => c.1 < d.1) ∧
  (∀ c ∈ m.cells, c.2 ≠ Memory.unlisted ∧ c.1 ∈ m.keys) ∧
  m.keys.Pairwise (· < ·) ∧
  (∀ k ∈ m.keys, k < 2 ^ 64)

/-- The spec's State, "`{program_counter: Word, register: Word, stack: Stack, memory: Memory}`" (R20). -/
structure Arch where
  /-- The position in the Program of the next instruction (R21). -/
  pc : Word
  /-- The one register, `x[0]` (R24). -/
  reg : Word
  /-- The stack, bottom first: the last element is the top (R9, R28). -/
  stack : List Word
  /-- The memory (R30, R31). -/
  mem : Memory
deriving DecidableEq, Repr

/-- The default State, "all fields zero/empty" (R38). -/
def Arch.default : Arch :=
  { pc := 0, reg := 0, stack := [], mem := { cells := [], keys := [] } }

/-- The kinds of ExecutionError, in the spec's order (`60_exceptions.md` rule R205). -/
inductive ExecutionError where
  /-- `depth < n` at the arity check of an opcode of arity n. -/
  | insufficientArguments
  /-- A push at depth 65535. -/
  | stackFull
  /-- A pop with nothing present. -/
  | stackEmpty
  /-- Overflow, underflow, or a zero divisor. -/
  | arithmeticOverflow
  /-- An opcode without a step. -/
  | illegalInstruction
deriving DecidableEq, Repr

/-- The phases of the block (R180), each with the data the block holds only there. -/
inductive Phase where
  | idle
  /-- The loader has presented these bytes (R236). -/
  | decoding (bytes : List Byte)
  /-- Terminal: the DecodeError reported (R201). -/
  | decodeFailed (e : DecodeError)
  | ready
  | running
  /-- Terminal: a Halt was stepped (R185). -/
  | halted
  /-- Terminal: pc reached or passed the end of the Program (R182). -/
  | ended
  /-- Terminal: a step raised this error (R187, R208). -/
  | faulted (e : ExecutionError)
deriving DecidableEq, Repr

/-- The two run modes (R188). -/
inductive RunMode where
  | silent
  | observed
deriving DecidableEq, Repr

/-- The whole block. -/
structure State where
  /-- The OPEN parameters (R6), the model's own field: no step and no host action changes them (log 1 to 3). -/
  cfg : OpenParams
  /-- The engine's phase (R180). -/
  phase : Phase
  /-- The Program store (R32); `none` where no Program is held (R38). -/
  program : Option Program
  /-- The run mode the driver chose (R188, R238). -/
  mode : RunMode
  /-- The spec's State (R20). -/
  arch : Arch
  /-- The pairs emitted to the observer, oldest first (R188). -/
  trace : List (Arch × Instr)
deriving DecidableEq, Repr

/-- The one configuration record of the machine (R6): its OPEN parameters beside the settled ones. -/
def State.config (s : State) : Config := Config.of s.cfg

/-- Replaces the spec's State whole, as a successful step does (R181). -/
def State.setArch (s : State) (a : Arch) : State := { s with arch := a }

/-- Moves the block to another phase (R180). -/
def State.setPhase (s : State) (p : Phase) : State := { s with phase := p }

/-- Fills the Program store (R180, `READY`). -/
def State.setProgram (s : State) (p : Program) : State := { s with program := some p }

/-- Records the run mode (R238). -/
def State.setMode (s : State) (m : RunMode) : State := { s with mode := m }

/-- Emits one pair to the observer (R188). -/
def State.emit (s : State) (i : Instr) : State := { s with trace := s.trace ++ [(s.arch, i)] }

/-- Why a step answers no next state: the block is in a terminal phase, and "the stopped block has no step at all"
(R190). All are safe: nothing is proved of a step the spec does not give (log 6). -/
inductive Fault where
  /-- Raised by `step` in `DECODE_FAILED`. Safe. -/
  | stoppedDecodeFailed (e : DecodeError)
  /-- Raised by `step` in `HALTED`. Safe. -/
  | stoppedHalted
  /-- Raised by `step` in `ENDED`. Safe. -/
  | stoppedEnded
  /-- Raised by `step` in `FAULTED`. Safe. -/
  | stoppedFaulted (e : ExecutionError)
deriving DecidableEq, Repr

/-- What the model gives no meaning to, by name. All are safe. -/
inductive Refusal where
  /-- An instruction without a meaning, raised by `exec` alone; no instruction of this model is. Safe. -/
  | notModelled (mnemonic : String)
  /-- Raised by `step` in `DECODING`: the Program is longer than `PROG_MAX_LEN` (R23, U7). Safe. -/
  | programTooLong
  /-- Raised by `hostAct`: the byte input is longer than `INPUT_MAX_BYTES` (R6). Safe. -/
  | inputTooLong
  /-- Raised by `hostAct`: a launch State that is not valid (R232, U5). Safe. -/
  | launchStateNotValid
  /-- Raised by `hostAct`: an action the phase does not take (R180, R240). Safe. -/
  | hostActionNotTaken
deriving DecidableEq, Repr

/-- The block right after reset: phase `IDLE`, the default State, no Program (R230, R231, R38). DESIGN CHOICE, unsafe
only for a claim about these three fields at reset: `mode` silent and `trace` empty (log 12), `cfg` (log 1 to 3). -/
def State.reset : State :=
  { cfg := OpenParams.default, phase := .idle, program := none, mode := .silent, arch := Arch.default, trace := [] }

end Sys2Proof.Machine
end

