-- ==== Sys2Proof/Machine/Ops.lean ====
section
/-! DEFINITION. The named operations: the program counter (R21, R23), the stack controller (R26, R27, R29), the memory
subsystem (R51, R52), and the two ends of a step, `commit` and `raise` (R11, R207, R208). An operation of a step acts
on the spec's State (`Arch`) and either gives the working copy or an ExecutionError; the old State is never touched,
which is the transaction of rule R11. -/

namespace Sys2Proof.Machine

/-! ### The program counter -/

/-- `pc + 1` (R22). At 2^64 - 1 a free value: the spec chooses neither wrap-around nor a fault (R23, log 4). -/
def nextPc (pc : Word) : Word :=
  if pc = BitVec.allOnes 64 then Config.pcAfterTop else pc + 1

/-- `pc <- pc + 1`, "responsible for advancing program_counter by one" (R22). -/
def advance (a : Arch) : Arch := { a with pc := nextPc a.pc }

/-- `pc <- pc + HALT_PC_DELTA` (R101). -/
def advanceHalt (delta : Fin 2) (a : Arch) : Arch :=
  if delta = 0 then a else advance a

/-! ### The stack controller -/

/-- `Require(n)`, the arity check (R29). -/
def requireDepth (n : Nat) (a : Arch) : Except ExecutionError Unit :=
  if a.stack.length < n then .error .insufficientArguments else .ok ()

/-- `PushW(v)` (R26). -/
def pushW (v : Word) (a : Arch) : Except ExecutionError Arch :=
  if a.stack.length = stackCap then .error .stackFull else .ok { a with stack := a.stack ++ [v] }

/-- `PopW()`: the top and the State without it (R27). -/
def popW (a : Arch) : Except ExecutionError (Word × Arch) :=
  match a.stack.getLast? with
  | none => .error .stackEmpty
  | some v => .ok (v, { a with stack := a.stack.dropLast })

/-! ### The memory subsystem -/

/-- The Word that a list of cells holds at an address. -/
def cellsRead : List (Nat × Word) → Nat → Word
  | [], _ => Memory.unlisted
  | c :: cs, a => if c.1 = a then c.2 else cellsRead cs a

/-- The cells after a write, in canonical form: writing what an unlisted address reads as removes the cell. -/
def cellsWrite : List (Nat × Word) → Nat → Word → List (Nat × Word)
  | [], a, v => if v = Memory.unlisted then [] else [(a, v)]
  | c :: cs, a, v =>
    if a < c.1 then (if v = Memory.unlisted then c :: cs else (a, v) :: c :: cs)
    else if a = c.1 then (if v = Memory.unlisted then cs else (a, v) :: cs)
    else c :: cellsWrite cs a v

/-- The keys after a write: the address is added, nothing is removed (R31). -/
def keysAdd : List Nat → Nat → List Nat
  | [], a => [a]
  | k :: ks, a => if a < k then a :: k :: ks else if a = k then k :: ks else k :: keysAdd ks a

/-- `MemRead(a, 1)`: never fails, changes nothing (R51). -/
def memRead (m : Memory) (a : Word) : Word := cellsRead m.cells a.toNat

/-- `MemWrite(a, 1, v)`: never fails (R52, log 11). -/
def memWrite (m : Memory) (a v : Word) : Memory :=
  { cells := cellsWrite m.cells a.toNat v, keys := keysAdd m.keys a.toNat }

/-- Whether an address is in "`keys(mem)`": written since reset (R31), or a key of the launch State (log 20). -/
abbrev hasKey (m : Memory) (a : Word) : Prop := a.toNat ∈ m.keys

/-! ### The two ends of a step -/

/-- Taking an ExecutionError (R208): the run ends in `FAULTED`, and the State is the one before the step, pc at the
failing instruction. There is no handler and no return from it (R209). -/
def raise (e : ExecutionError) (s : State) : Host.Outcome State Fault Refusal :=
  .next (s.setPhase (.faulted e))

/-- The end of a step (R11): a working copy that ran to its end becomes the State, an error discards it (R207). -/
def commit (r : Except ExecutionError Arch) (s : State) : Host.Outcome State Fault Refusal :=
  match r with
  | .ok a => .next (s.setArch a)
  | .error e => raise e s

/-- The numeric code of an ExecutionError (R205, D8). -/
def executionErrorCode : ExecutionError → Nat
  | .insufficientArguments => 1
  | .stackFull => 2
  | .stackEmpty => 3
  | .arithmeticOverflow => 4
  | .illegalInstruction => 5

end Sys2Proof.Machine
end

