-- ==== Sys2Proof/Machine/Operands.lean ====
section
/-! DEFINITION. The operand forms. Every operand comes from the stack, the register or the literal of `Set` (R74).
The forms that several instructions share are the one-operand form (R163) and the two-operand form with its operand
order (`44_arithmetic.md` rule R148). The effective address of Load and Store is the popped Word itself (R112). -/

namespace Sys2Proof.Machine

/-- A State the spec calls valid (R39): the Words are Words by their type, so what is left is the stack's bound
(R28) and the memory's canonical form. -/
abbrev archValid (a : Arch) : Prop := a.stack.length ≤ stackCap ∧ a.mem.wf

/-- The two-operand form (R148): arity check, `a` the top, `b` beneath it, `op a b`, push, advance. -/
def binaryStep (op : Word → Word → Except ExecutionError Word) (s : Arch) : Except ExecutionError Arch := do
  requireDepth 2 s
  let (a, s) ← popW s
  let (b, s) ← popW s
  let r ← op a b
  let s ← pushW r s
  return advance s

/-- The one-operand form (R163, R110): arity check, `a` the top, `op` of it and the State, push, advance. -/
def unaryStep (op : Arch → Word → Word) (s : Arch) : Except ExecutionError Arch := do
  requireDepth 1 s
  let (a, s) ← popW s
  let s ← pushW (op s a) s
  return advance s

end Sys2Proof.Machine
end

