-- ==== Sys2Proof/Machine/Flags.lean ====
section
/-! DEFINITION. The machine has no flags: "Arithmetic overflow sets no flag: it fails the step" (`10_state.md` rule
R33). What stands in a flag's place are the checked Word operations of `44_arithmetic.md` rule R140: each computes over
the mathematical integers and either gives the exact result or raises `ArithmeticOverflow`. -/

namespace Sys2Proof.Machine

/-- A mathematical result stored as a Word only after it is shown to be one (R8, R140). -/
def narrow (r : Int) : Except ExecutionError Word :=
  if 0 ≤ r ∧ r < 2 ^ 64 then .ok (BitVec.ofInt 64 r) else .error .arithmeticOverflow

/-- `checked_add` (R140). -/
def checkedAdd (a b : Word) : Except ExecutionError Word := narrow ((a.toNat : Int) + b.toNat)

/-- `checked_sub`: fails exactly when the exact result is negative (R140). -/
def checkedSub (a b : Word) : Except ExecutionError Word := narrow ((a.toNat : Int) - b.toNat)

/-- `checked_mul`: the full product is tested, not its low 64 bits (R140, R143). -/
def checkedMul (a b : Word) : Except ExecutionError Word := narrow ((a.toNat : Int) * b.toNat)

/-- `checked_div`: fails exactly on a zero divisor (R140); PRESUMED: rounds down (G1, log 14). -/
def checkedDiv (a b : Word) : Except ExecutionError Word :=
  if b.toNat = 0 then .error .arithmeticOverflow else narrow ((a.toNat / b.toNat : Nat) : Int)

/-- `checked_mod`: fails exactly on a zero divisor (R140, R145); PRESUMED: the matching remainder (G1, log 14). -/
def checkedMod (a b : Word) : Except ExecutionError Word :=
  if b.toNat = 0 then .error .arithmeticOverflow else narrow ((a.toNat % b.toNat : Nat) : Int)

/-- The equality test of Cmp: 1 or 0 (R160). -/
def equalWord (a b : Word) : Word := if a = b then 1 else 0

end Sys2Proof.Machine
end

