-- ==== Sys2Proof/Machine/Arithmetic.lean ====
section
/-! DEFINITION. The arithmetic instructions (`44_arithmetic.md`): the two-operand form of rule R148 over the checked
operations of rule R140. -/

namespace Sys2Proof.Machine

/-- Add: "push checked a+b" (R141). -/
def execAdd (s : State) : Host.Outcome State Fault Refusal := commit (binaryStep checkedAdd s.arch) s

/-- Sub: "top-of-stack minus the element beneath it" (R142). -/
def execSub (s : State) : Host.Outcome State Fault Refusal := commit (binaryStep checkedSub s.arch) s

/-- Mul: "push checked a×b" (R143). -/
def execMul (s : State) : Host.Outcome State Fault Refusal := commit (binaryStep checkedMul s.arch) s

/-- Div: the top divided by the element beneath it, rounded down (R144). -/
def execDiv (s : State) : Host.Outcome State Fault Refusal := commit (binaryStep checkedDiv s.arch) s

/-- Mod: fails on a zero modulus, as the source rules (R145, D11). -/
def execMod (s : State) : Host.Outcome State Fault Refusal := commit (binaryStep checkedMod s.arch) s

end Sys2Proof.Machine
end

