-- ==== Sys2Proof/Machine/CompareBitwise.lean ====
section
/-! DEFINITION. The comparison and bitwise instructions (`45_compare_bitwise.md`); none of their operations fails
(R165). -/

namespace Sys2Proof.Machine

/-- Cmp: "push 1 if a==b else 0" (R160). -/
def execCmp (s : State) : Host.Outcome State Fault Refusal :=
  commit (binaryStep (fun a b => .ok (equalWord a b)) s.arch) s

/-- And (R161). -/
def execAnd (s : State) : Host.Outcome State Fault Refusal :=
  commit (binaryStep (fun a b => .ok (a &&& b)) s.arch) s

/-- Or (R162). -/
def execOr (s : State) : Host.Outcome State Fault Refusal :=
  commit (binaryStep (fun a b => .ok (a ||| b)) s.arch) s

/-- Not: the complement of all 64 bits (R163). -/
def execNot (s : State) : Host.Outcome State Fault Refusal :=
  commit (unaryStep (fun _ a => ~~~a) s.arch) s

/-- Xor (R164). -/
def execXor (s : State) : Host.Outcome State Fault Refusal :=
  commit (binaryStep (fun a b => .ok (a ^^^ b)) s.arch) s

end Sys2Proof.Machine
end

