-- ==== Sys2Proof/Machine/Control.lean ====
section
/-! DEFINITION. The control instructions Nop, Halt and Jump (`40_control.md`). -/

namespace Sys2Proof.Machine

/-- Nop: "advance program counter only" (R100). -/
def execNop (s : State) : Host.Outcome State Fault Refusal :=
  commit (.ok (advance s.arch)) s

/-- Halt: pc moves by `HALT_PC_DELTA` and the run stops with outcome Halted (R101, R185). -/
def execHalt (s : State) : Host.Outcome State Fault Refusal :=
  .next ((s.setArch (advanceHalt s.config.haltPcDelta s.arch)).setPhase .halted)

/-- Jump: "pop target; set program_counter to target directly (no +1)" (R102). -/
def execJump (s : State) : Host.Outcome State Fault Refusal :=
  commit (do
    requireDepth 1 s.arch
    let (target, a) ← popW s.arch
    return { a with pc := target }) s

end Sys2Proof.Machine
end

