-- ==== Sys2Proof/Machine/LoadStore.lean ====
section
/-! DEFINITION. The memory instructions Load and Store (`41_memory_load_store.md`). -/

namespace Sys2Proof.Machine

/-- Load: "pop address; push memory value at that address" (R110). -/
def execLoad (s : State) : Host.Outcome State Fault Refusal :=
  commit (unaryStep (fun a addr => memRead a.mem addr) s.arch) s

/-- Store: "pop address, then pop value; write value at address" (R111). -/
def execStore (s : State) : Host.Outcome State Fault Refusal :=
  commit (do
    requireDepth 2 s.arch
    let (addr, a) ← popW s.arch
    let (v, a) ← popW a
    return advance { a with mem := memWrite a.mem addr v }) s

end Sys2Proof.Machine
end

