-- ==== Sys2Proof/Machine/RegisterStack.lean ====
section
/-! DEFINITION. The register and stack instructions Push, Pop and Set (`42_register_stack.md`), the only ones that
touch the register (R24, R123). -/

namespace Sys2Proof.Machine

/-- Push: copies the register onto the stack (R120, R25); no arity check, fails only at depth 65535. -/
def execPush (s : State) : Host.Outcome State Fault Refusal :=
  commit (do
    let a ← pushW s.arch.reg s.arch
    return advance a) s

/-- Pop: "pop top of stack into register" (R121); no arity check, fails with `StackEmpty` (C2). -/
def execPop (s : State) : Host.Outcome State Fault Refusal :=
  commit (do
    let (v, a) ← popW s.arch
    return advance { a with reg := v }) s

/-- Set(w): "set register to embedded 8-byte literal" (R122); one position although the encoding is 9 bytes. -/
def execSet (w : Word) (s : State) : Host.Outcome State Fault Refusal :=
  commit (.ok (advance { s.arch with reg := w })) s

end Sys2Proof.Machine
end

