-- ==== Sys2Proof/Machine/Reserved.lean ====
section
/-! DEFINITION. The reserved instructions Read, Write and JumpIf (`43_reserved.md`): decodable, and their step takes
the illegal-instruction error in every State, without an arity check (R133, R210). -/

namespace Sys2Proof.Machine

/-- Read: `raise IllegalInstruction` (R130). -/
def execRead (s : State) : Host.Outcome State Fault Refusal := raise .illegalInstruction s

/-- Write: `raise IllegalInstruction` (R131). -/
def execWrite (s : State) : Host.Outcome State Fault Refusal := raise .illegalInstruction s

/-- JumpIf: `raise IllegalInstruction`; pops nothing (R132). -/
def execJumpIf (s : State) : Host.Outcome State Fault Refusal := raise .illegalInstruction s

end Sys2Proof.Machine
end

