-- ==== Sys2Proof/Machine/Dispatch.lean ====
section
/-! DEFINITION. `step(S, instr)` of `49_run_loop.md` rule R184: one arm per variant, each a call of the variant's own
meaning. -/

namespace Sys2Proof.Machine

def exec (i : Instr) (s : State) : Host.Outcome State Fault Refusal :=
  match i with
  | .nop => Sys2Proof.Machine.execNop s
  | .halt => Sys2Proof.Machine.execHalt s
  | .load => Sys2Proof.Machine.execLoad s
  | .store => Sys2Proof.Machine.execStore s
  | .push => Sys2Proof.Machine.execPush s
  | .pop => Sys2Proof.Machine.execPop s
  | .set w => Sys2Proof.Machine.execSet w s
  | .read => Sys2Proof.Machine.execRead s
  | .write => Sys2Proof.Machine.execWrite s
  | .jump => Sys2Proof.Machine.execJump s
  | .jumpIf => Sys2Proof.Machine.execJumpIf s
  | .add => Sys2Proof.Machine.execAdd s
  | .sub => Sys2Proof.Machine.execSub s
  | .mul => Sys2Proof.Machine.execMul s
  | .div => Sys2Proof.Machine.execDiv s
  | .mod => Sys2Proof.Machine.execMod s
  | .cmp => Sys2Proof.Machine.execCmp s
  | .and => Sys2Proof.Machine.execAnd s
  | .or => Sys2Proof.Machine.execOr s
  | .not => Sys2Proof.Machine.execNot s
  | .xor => Sys2Proof.Machine.execXor s

end Sys2Proof.Machine
end

