-- ==== Sys2Proof/WellFormed.lean ====
section
/-! DEFINITION. The checks on what the host hands in. An instruction needs none: every value of `Instr` is a legal
instruction (R72, R74). A Program and a byte input have a bound each (`00_scope.md` rule R6); the bound on a launch
State is in Machine/Operands.lean (`archValid`). -/

namespace Sys2Proof

/-- "A well-formed Program has `len <= PROG_MAX_LEN`" (D6, R23). -/
abbrev programFits (c : Config) (p : Program) : Prop := p.length ≤ c.progMaxLen.toNat

/-- The input is at most `INPUT_MAX_BYTES` long, where there is such a bound (R6, D6). -/
abbrev inputFits (c : Config) (bytes : List Byte) : Prop := ∀ m ∈ c.inputMaxBytes, bytes.length ≤ m

end Sys2Proof
end

