-- ==== Sys2Proof/Decode.lean ====
section
/-! DEFINITION. The decoder and the encoder (`30_encoding.md`): `decodeOne` is the single-instruction decoder of rule
R76, `decode` the stream decoder of rule R75, `encode` the inverse of rule R84, and `decodeTableWord` reads a word of
the opcode table's numbering. Both read the opcode bytes from
`Config.settled` (`00_scope.md` rule R7). Everything recurses on lists, so that the kernel can run it. -/

namespace Sys2Proof

/-! ### The decoder -/

/-- The opcode byte of the literal-load instruction (R72, R73). -/
def setOpcode : Byte := Config.settled.opcodes.set

/-- `LITERAL_BYTES`: the payload length of opcode 0x06 (R6, R74). -/
def literalBytes : Nat := Config.settled.literalBytes

/-- The opcode map of rule R72 less `Set`: the payload-free variants, each beside its byte. -/
def opcodeRows : List (Byte × Instr) :=
  let o := Config.settled.opcodes
  [ (o.nop, .nop), (o.halt, .halt), (o.load, .load), (o.store, .store), (o.push, .push),
    (o.pop, .pop), (o.read, .read), (o.write, .write), (o.jump, .jump), (o.jumpIf, .jumpIf),
    (o.add, .add), (o.sub, .sub), (o.mul, .mul), (o.div, .div), (o.mod, .mod),
    (o.cmp, .cmp), (o.and, .and), (o.or, .or), (o.not, .not), (o.xor, .xor) ]

/-- The payload-free variant of a byte, `none` for the byte of `Set` and for the 235 unrecognized bytes (R72, R81). -/
def payloadFree (b : Byte) : Option Instr := opcodeRows.lookup b

/-- The literal of `Set`, first byte most significant (R74). -/
def literalWord (payload : List Byte) : Word :=
  BitVec.ofNat 64 (payload.foldl (fun n b => n * 256 + b.toNat) 0)

/-- The single-instruction decoder, its tests in the order of rule R76: empty, opcode recognised, length. -/
def decodeOne : List Byte → Except DecodeErrorKind Instr
  | [] => .error .noInput
  | b :: payload =>
    if b = setOpcode then
      if payload.length < literalBytes then .error .incompleteLiteral
      else if payload.length = literalBytes then .ok (.set (literalWord payload))
      else Config.longLiteralSlice (b :: payload)
    else
      match payloadFree b with
      | none => .error .unrecognizedOpcode
      | some i => if payload = [] then .ok i else .error .unexpectedPayload

/-- The length of the slice that `decode` hands to `decode_one` at an opcode position: 9 bytes, or what is left of
the input, for opcode 0x06, else 1 (R73, R75). -/
def sliceLength : List Byte → Nat
  | [] => 0
  | b :: rest => if b = setOpcode then min (1 + literalBytes) (1 + rest.length) else 1

/-- The instruction at the front of a byte sequence: `decode_one` of the slice rule R75 makes there. -/
def decodeHead (bytes : List Byte) : Except DecodeErrorKind Instr :=
  decodeOne (bytes.take (sliceLength bytes))

/-- The loop of rule R75 over the bytes from offset `off` on. `skip` counts the bytes that still belong to the
instruction decoded last: literal bytes "are never looked at as opcodes" (R73). -/
def decodeFrom (skip off : Nat) : List Byte → Except DecodeError Program
  | [] => .ok []
  | b :: rest =>
    match skip with
    | k + 1 => decodeFrom k (off + 1) rest
    | 0 =>
      match decodeHead (b :: rest) with
      | .error e => .error { kind := e, offset := off }
      | .ok i =>
        match decodeFrom (sliceLength (b :: rest) - 1) (off + 1) rest with
        | .error e => .error e
        | .ok p => .ok (i :: p)

/-- The stream decoder: "given an ordered byte sequence, produce an ordered Program or fail at the first undecodable
position, returning the failure kind and the byte offset" (R75); all or nothing (R79). -/
def decode (bytes : List Byte) : Except DecodeError Program :=
  decodeFrom 0 0 bytes

/-- The numeric code of a DecodeError kind (R200, D8). -/
def decodeErrorCode : DecodeErrorKind → Nat
  | .noInput => 1
  | .unrecognizedOpcode => 2
  | .incompleteLiteral => 3
  | .unexpectedPayload => 4

/-! ### The encoder -/

/-- The opcode byte of every variant (R72). -/
def opcode : Instr → Byte
  | .nop => Config.settled.opcodes.nop
  | .halt => Config.settled.opcodes.halt
  | .load => Config.settled.opcodes.load
  | .store => Config.settled.opcodes.store
  | .push => Config.settled.opcodes.push
  | .pop => Config.settled.opcodes.pop
  | .set _ => setOpcode
  | .read => Config.settled.opcodes.read
  | .write => Config.settled.opcodes.write
  | .jump => Config.settled.opcodes.jump
  | .jumpIf => Config.settled.opcodes.jumpIf
  | .add => Config.settled.opcodes.add
  | .sub => Config.settled.opcodes.sub
  | .mul => Config.settled.opcodes.mul
  | .div => Config.settled.opcodes.div
  | .mod => Config.settled.opcodes.mod
  | .cmp => Config.settled.opcodes.cmp
  | .and => Config.settled.opcodes.and
  | .or => Config.settled.opcodes.or
  | .not => Config.settled.opcodes.not
  | .xor => Config.settled.opcodes.xor

/-- The 8 bytes of a literal, `w[63:56]` first (R71, R84). -/
def literalPayload (w : Word) : List Byte :=
  [w.extractLsb' 56 8, w.extractLsb' 48 8, w.extractLsb' 40 8, w.extractLsb' 32 8,
    w.extractLsb' 24 8, w.extractLsb' 16 8, w.extractLsb' 8 8, w.extractLsb' 0 8]

/-- The bytes after the opcode byte: the literal of `Set`, none for the others (R71). -/
def payload : Instr → List Byte
  | .set w => literalPayload w
  | _ => []

/-- The encoding of one instruction (R84). -/
def encode (i : Instr) : List Byte :=
  opcode i :: payload i

/-- "The encoding of a Program is the concatenation of the encodings of its instructions in order" (R84). -/
def encodeProgram (p : Program) : List Byte :=
  p.flatMap encode

/-! ### The opcode table's words -/

/-- The bytes of the instruction whose bits the opcode table numbers `w`: byte k holds bits 8k+7 to 8k, the bits
above `nbits` are 0, and there are as many bytes as the longest instruction has (R71). -/
def tableBytes (nbits w : Nat) : List Byte :=
  [0, 1, 2, 3, 4, 5, 6, 7, 8].map fun k => BitVec.ofNat 8 ((w % 2 ^ nbits) / 2 ^ (8 * k))

/-- The instruction the decoder reads from the bytes of a table word, `none` where it refuses. -/
def decodeTableWord (nbits w : Nat) : Option Instr :=
  (decodeHead (tableBytes nbits w)).toOption

end Sys2Proof
end

