-- ==== Sys2Proof/Machine/Engine.lean ====
section
/-! DEFINITION. The parts of the execution state machine (`49_run_loop.md`) that step calls: decoding the presented
bytes (R180, R201), fetching (R183), the end of the Program (R182), the observer (R188), and what the block reports to
the host at a stop (R186, R237, R239). -/

namespace Sys2Proof.Machine

/-- The Program the run loop works over. In `RUNNING` a Program is always held (`Inv` in Safety.lean); without one,
no position is below `len` (log 19). -/
def programOf (s : State) : Program := s.program.getD []

/-- The instruction at position pc, `none` exactly when `pc >= len`, compared as unsigned numbers over all 64 bits
(R182, R183, D15). -/
def fetch (s : State) : Option Instr := (programOf s)[s.arch.pc.toNat]?

/-- `IDLE` and `READY`: "nothing" happens until the host acts (R180, log 7). -/
def waitForHost (s : State) : Host.Outcome State Fault Refusal := .next s

/-- `DECODING`: decode runs to its end (R180). A DecodeError leaves no Program and the State untouched (R201); a
Program beyond `PROG_MAX_LEN` is not well-formed and is refused (R23, U7). -/
def decodeInput (bytes : List Byte) (s : State) : Host.Outcome State Fault Refusal :=
  match decode bytes with
  | .error e => .next (s.setPhase (.decodeFailed e))
  | .ok p => if programFits s.config p then .next ((s.setProgram p).setPhase .ready) else .refused .programTooLong

/-- The end of the Program: the run stops normally with the State as it is (R182). -/
def endRun (s : State) : Host.Outcome State Fault Refusal := .next (s.setPhase .ended)

/-- The observed mode: after a successful step the pair of the new State and the instruction is emitted; a Halt is
reported, a failed step is not (R188, D7). -/
def observe (i : Instr) (o : Host.Outcome State Fault Refusal) : Host.Outcome State Fault Refusal :=
  match o with
  | .next t =>
    match t.mode, t.phase with
    | .silent, _ => .next t
    | .observed, .faulted _ => .next t
    | .observed, _ => .next (t.emit i)
  | .fault r => .fault r
  | .refused r => .refused r

/-- The outcome of a run, "one of three records" (R186). -/
inductive RunOutcome where
  | halted (a : Arch)
  | ended (a : Arch)
  | faulted (e : ExecutionError) (a : Arch)
deriving DecidableEq, Repr

/-- What the block hands to the driver at a stop, `none` before one (R186, R239). -/
def outcomeOf (s : State) : Option RunOutcome :=
  match s.phase with
  | .halted => some (.halted s.arch)
  | .ended => some (.ended s.arch)
  | .faulted e => some (.faulted e s.arch)
  | .idle | .decoding _ | .decodeFailed _ | .ready | .running => none

/-- What the block reports after decoding, "either 'Program ready' or a DecodeError" (R237); `none` before. -/
def decodeReport (s : State) : Option (Except DecodeError Unit) :=
  match s.phase with
  | .idle | .decoding _ => none
  | .decodeFailed e => some (.error e)
  | .ready | .running | .halted | .ended | .faulted _ => some (.ok ())

/-- The bytes of one instruction placed for the very next fetch: the decoded instruction at pc, in the Program held
if pc is below its length, else as a Program of its own at position 0; the engine `RUNNING`. Bytes that do not decode
cannot stand in a Program store: they are presented to the decoder instead (log 8). -/
def placeForFetch (s : State) (bytes : List Byte) : State :=
  match decodeHead bytes with
  | .ok i =>
    if s.arch.pc.toNat < (programOf s).length then
      { s with phase := .running, program := some ((programOf s).set s.arch.pc.toNat i) }
    else { s with phase := .running, program := some [i], arch := { s.arch with pc := 0 } }
  | .error _ => { s with phase := .decoding bytes }

end Sys2Proof.Machine
end

