-- ==== Sys2Proof/Machine/Step.lean ====
section
/-! DEFINITION. One step of the block (`49_run_loop.md`): decoding in `DECODING`, one iteration of the run loop of
rule R181 in `RUNNING`, nothing while the host has to act, and no step in the terminal phases (R190). -/

namespace Sys2Proof.Machine

/-- One iteration of the run loop (R181): end of Program, or fetch, step and observe. The Halt and error stops are in
the meaning's next state (R185, R208). -/
def runStep (s : State) : Host.Outcome State Fault Refusal :=
  match fetch s with
  | none => endRun s
  | some i => observe i (exec i s)

/-- One step of the block, by phase (R180). -/
def step (s : State) : Host.Outcome State Fault Refusal :=
  match s.phase with
  | .idle => waitForHost s
  | .decoding bytes => decodeInput bytes s
  | .ready => waitForHost s
  | .running => runStep s
  | .decodeFailed e => .fault (.stoppedDecodeFailed e)
  | .halted => .fault .stoppedHalted
  | .ended => .fault .stoppedEnded
  | .faulted e => .fault (.stoppedFaulted e)

/-- `s` with the instruction of a table word placed where the run loop fetches next (log 8). -/
def State.withFetchWord (s : State) (nbits w : Nat) : State :=
  placeForFetch s (tableBytes nbits w)

end Sys2Proof.Machine
end

