-- ==== Sys2Proof/Machine/HostInterface.lean ====
section
/-! DEFINITION. What the outside world can do to the block (`70_reset_and_hazards.md` rules R230 to R240). These are
inputs between steps, not steps: `step` never performs one (log 8). -/

namespace Sys2Proof.Machine

/-- The actions of the loader, the driver and the reset input (R230, R232, R236, R238). -/
inductive HostAction where
  | reset
  | present (bytes : List Byte)
  | launch (a : Arch)
  | start (m : RunMode)
deriving DecidableEq, Repr

/-- Reset "acts in every phase" and discards a run (R230); the parameters belong to the machine and stay (log 16). -/
def hostReset (s : State) : State := { State.reset with cfg := s.cfg }

/-- The loader presents one byte sequence, whole, in `IDLE` (R236). -/
def hostPresent (bytes : List Byte) (s : State) : Host.Outcome State Fault Refusal :=
  match s.phase with
  | .idle => if inputFits s.config bytes then .next (s.setPhase (.decoding bytes)) else .refused .inputTooLong
  | _ => .refused .hostActionNotTaken

/-- The host may load any valid State as the launch State in `READY` (R232). DESIGN CHOICE: it brings its own
`keys(mem)`, any set that covers the non-zero cells; no rule says what a launch does to the keys (R31, log 20). -/
def hostLaunch (a : Arch) (s : State) : Host.Outcome State Fault Refusal :=
  match s.phase with
  | .ready => if archValid a then .next (s.setArch a) else .refused .launchStateNotValid
  | _ => .refused .hostActionNotTaken

/-- The driver starts the run in silent or observed mode (R238). -/
def hostStart (m : RunMode) (s : State) : Host.Outcome State Fault Refusal :=
  match s.phase with
  | .ready => .next ((s.setMode m).setPhase .running)
  | _ => .refused .hostActionNotTaken

/-- One action of the outside world; in a phase that does not take it, it is refused (R180, R240, log 9). -/
def hostAct (act : HostAction) (s : State) : Host.Outcome State Fault Refusal :=
  match act with
  | .reset => .next (hostReset s)
  | .present bytes => hostPresent bytes s
  | .launch a => hostLaunch a s
  | .start m => hostStart m s

end Sys2Proof.Machine
end

