-- ==== Sys2Proof/Safety.lean ====
section
/-! DEFINITION. The terms in which claims are made: how a meaning ends (`Completes`, `Raises`), the error table of
`60_exceptions.md` rule R206, the invariant of the block, and reachability. -/

namespace Sys2Proof.Machine

/-- The step of `i` succeeds and the State becomes `a`; everything else of the block is unchanged (R184, R11). -/
def Completes (i : Instr) (s : State) (a : Arch) : Prop := exec i s = .next { s with arch := a }

/-- The step of `i` fails with `e`: the run is `FAULTED` and nothing else changed (R207, R208). -/
def Raises (i : Instr) (s : State) (e : ExecutionError) : Prop := exec i s = .next { s with phase := .faulted e }

/-- The table of rule R206: the error an instruction raises in a State, if any. Stacks are bottom first, so the top
`a` is the last element and `b` the one before it. -/
def errorTable (i : Instr) (x : Arch) : Option ExecutionError :=
  let short (n : Nat) (e : Option ExecutionError) : Option ExecutionError :=
    if x.stack.length < n then some .insufficientArguments else e
  let a := (x.stack.reverse.getD 0 0).toNat
  let b := (x.stack.reverse.getD 1 0).toNat
  let overflow (c : Bool) : Option ExecutionError := if c then some .arithmeticOverflow else none
  match i with
  | .nop | .halt | .set _ => none
  | .push => if x.stack.length = stackCap then some .stackFull else none
  | .pop => if x.stack.length = 0 then some .stackEmpty else none
  | .read | .write | .jumpIf => some .illegalInstruction
  | .load | .jump | .not => short 1 none
  | .store | .cmp | .and | .or | .xor => short 2 none
  | .add => short 2 (overflow (2 ^ 64 ≤ a + b))
  | .sub => short 2 (overflow (a < b))
  | .mul => short 2 (overflow (2 ^ 64 ≤ a * b))
  | .div | .mod => short 2 (overflow (b = 0))

/-- The phases before a run, in which nothing has changed the default State yet (R180, R201). -/
def Phase.beforeReady : Phase → Bool
  | .idle | .decoding _ | .decodeFailed _ => true
  | .ready | .running | .halted | .ended | .faulted _ => false

/-- The invariant of the block. -/
structure Inv (s : State) : Prop where
  /-- The State is valid: bounded stack, canonical memory (R28, R39). -/
  valid : archValid s.arch
  /-- The Program held is well-formed (R23). -/
  fits : ∀ p ∈ s.program, programFits s.config p
  /-- A Program is held exactly from `READY` on (R180, R201, R38). -/
  held : s.program.isSome = !s.phase.beforeReady
  /-- Before `READY` the State is the default State (R180, R201). -/
  untouched : s.phase.beforeReady = true → s.arch = Arch.default
  /-- Nothing is emitted before a run, and nothing in silent mode (R188). -/
  quiet : s.phase.beforeReady = true ∨ s.phase = .ready ∨ s.mode = .silent → s.trace = []
  /-- Every State the observer was given is valid (R188, R39). -/
  emitted : ∀ e ∈ s.trace, archValid e.1
  /-- A run that ended normally has pc at or past the end of the Program (R182). -/
  past : s.phase = .ended → (programOf s).length ≤ s.arch.pc.toNat

/-- The states the block can be in: after reset, with any parameters, steps and host actions in any order. -/
inductive Reachable : State → Prop where
  | reset (c : OpenParams) : Reachable { State.reset with cfg := c }
  | step {s t : State} : Reachable s → Sys2Proof.Machine.step s = .next t → Reachable t
  | host {s t : State} (act : HostAction) : Reachable s → hostAct act s = .next t → Reachable t

end Sys2Proof.Machine
end

