-- ==== Sys2Proof/Certificates/Slice0/Obligations.lean ====
section
/-! DEFINITION. The statements for the provers. `Completes`, `Raises`, `errorTable`, `Inv` and `Reachable` are in
Safety.lean. Stacks are bottom first, so `rest ++ [b, a]` has `a` on top (R9, R148). Where an instruction advances pc,
the premise `pc < 2^64 - 1` is rule R23's: the spec gives `pc + 1` no value at 2^64 - 1, and no run gets there
(`PcStaysBelowTopInARun`). Where a stack bound stands as a premise it is rule R28's, kept by every step
(`StepKeepsInvariant`). -/

open Sys2Proof Sys2Proof.Machine

/-! ### Control (40_control.md) -/

/-- R100: Nop writes pc only and cannot fail in any State. -/
def Obligations.NopAdvancesPcOnly : Prop :=
  decode [0x00] = .ok [.nop] ∧
  ∀ s : State,
    (s.arch.pc.toNat < 2 ^ 64 - 1 → Completes .nop s { s.arch with pc := s.arch.pc + 1 }) ∧
    (∃ p, Completes .nop s { s.arch with pc := p })

/-- R101: Halt adds HALT_PC_DELTA to pc, always succeeds, leaves reg, stack and mem, and the run stops Halted. -/
def Obligations.HaltAddsDeltaAndStops : Prop :=
  decode [0x01] = .ok [.halt] ∧
  ∀ s : State,
    (s.cfg.haltPcDelta = 0 → exec .halt s = .next { s with phase := .halted }) ∧
    (s.cfg.haltPcDelta = 1 → s.arch.pc.toNat < 2 ^ 64 - 1 →
      exec .halt s = .next { s with phase := .halted, arch := { s.arch with pc := s.arch.pc + 1 } }) ∧
    (∃ p, exec .halt s = .next { s with phase := .halted, arch := { s.arch with pc := p } })

/-- R102: Jump pops the target and sets pc to all 64 bits of it; with an empty stack it raises InsufficientArguments. -/
def Obligations.JumpSetsPcToPoppedTarget : Prop :=
  decode [0x09] = .ok [.jump] ∧
  ∀ s : State,
    (s.arch.stack = [] → Raises .jump s .insufficientArguments) ∧
    (∀ rest target, s.arch.stack = rest ++ [target] →
      Completes .jump s { s.arch with pc := target, stack := rest })

/-! ### Memory (41_memory_load_store.md, 20_memory.md) -/

/-- R110: Load replaces the address on top by the Word memory holds there. -/
def Obligations.LoadReplacesAddressByValue : Prop :=
  decode [0x02] = .ok [.load] ∧
  ∀ s : State, s.arch.stack.length ≤ 65535 →
    (s.arch.stack = [] → Raises .load s .insufficientArguments) ∧
    (∀ rest addr, s.arch.stack = rest ++ [addr] → s.arch.pc.toNat < 2 ^ 64 - 1 →
      Completes .load s
        { s.arch with stack := rest ++ [memRead s.arch.mem addr], pc := s.arch.pc + 1 })

/-- R111: Store pops the address and then the value; afterwards the address holds the value and is a key, and every
other address reads as before. -/
def Obligations.StoreWritesValueAtAddress : Prop :=
  decode [0x03] = .ok [.store] ∧
  ∀ s : State,
    (s.arch.stack.length < 2 → Raises .store s .insufficientArguments) ∧
    (∀ rest v addr, s.arch.stack = rest ++ [v, addr] → s.arch.mem.wf → s.arch.pc.toNat < 2 ^ 64 - 1 →
      ∃ m : Memory,
        Completes .store s { s.arch with stack := rest, mem := m, pc := s.arch.pc + 1 } ∧
        (∀ b, memRead m b = if b = addr then v else memRead s.arch.mem b) ∧
        (∀ b, hasKey m b ↔ b = addr ∨ hasKey s.arch.mem b))

/-- R51, R30: an address that is no key reads 0, in every canonical memory (which addresses are keys after a launch is
the choice of log 20). -/
def Obligations.UnwrittenAddressReadsZero : Prop :=
  ∀ (m : Memory) (a : Word), m.wf → ¬hasKey m a → memRead m a = 0

/-- R59: a Load that follows a Store of the same address returns the stored value; of another address, what it held
before. -/
def Obligations.LoadAfterStoreSeesLatestValue : Prop :=
  ∀ (s : State) (rest : List Word) (b v addr : Word),
    s.arch.stack = rest ++ [b, v, addr] → s.arch.stack.length ≤ 65535 → s.arch.mem.wf →
    ∃ t u, exec .store s = .next t ∧ exec .load t = .next u ∧
      u.arch.stack = rest ++ [if b = addr then v else memRead s.arch.mem b]

/-! ### Register and stack (42_register_stack.md) -/

/-- R120: Push copies reg onto the stack; at depth 65535 it raises StackFull; it has no arity. -/
def Obligations.PushCopiesRegister : Prop :=
  decode [0x04] = .ok [.push] ∧
  ∀ s : State,
    (s.arch.stack.length = 65535 → Raises .push s .stackFull) ∧
    (s.arch.stack.length < 65535 → s.arch.pc.toNat < 2 ^ 64 - 1 →
      Completes .push s { s.arch with stack := s.arch.stack ++ [s.arch.reg], pc := s.arch.pc + 1 })

/-- R121: Pop moves the top into reg; with an empty stack it raises StackEmpty. -/
def Obligations.PopMovesTopIntoRegister : Prop :=
  decode [0x05] = .ok [.pop] ∧
  ∀ s : State,
    (s.arch.stack = [] → Raises .pop s .stackEmpty) ∧
    (∀ rest v, s.arch.stack = rest ++ [v] → s.arch.pc.toNat < 2 ^ 64 - 1 →
      Completes .pop s { s.arch with reg := v, stack := rest, pc := s.arch.pc + 1 })

/-- R122: Set writes its literal to reg, one position although the encoding is 9 bytes; it cannot fail. -/
def Obligations.SetWritesLiteralToRegister : Prop :=
  ∀ w : Word,
    decode [0x06, w.extractLsb' 56 8, w.extractLsb' 48 8, w.extractLsb' 40 8, w.extractLsb' 32 8,
      w.extractLsb' 24 8, w.extractLsb' 16 8, w.extractLsb' 8 8, w.extractLsb' 0 8] = .ok [.set w] ∧
    ∀ s : State,
      (s.arch.pc.toNat < 2 ^ 64 - 1 → Completes (.set w) s { s.arch with reg := w, pc := s.arch.pc + 1 }) ∧
      (∃ p, Completes (.set w) s { s.arch with reg := w, pc := p })

/-! ### Reserved (43_reserved.md) -/

/-- R130, R131, R132: the three reserved opcodes decode, and their step raises IllegalInstruction in every State. -/
def Obligations.ReservedOpcodesRaiseIllegalInstruction : Prop :=
  decode [0x07, 0x08, 0x0A] = .ok [.read, .write, .jumpIf] ∧
  ∀ s : State,
    Raises .read s .illegalInstruction ∧ Raises .write s .illegalInstruction ∧
    Raises .jumpIf s .illegalInstruction

/-! ### Arithmetic (44_arithmetic.md) -/

/-- R141: Add pushes the exact sum, or raises ArithmeticOverflow when it is above 2^64 - 1. -/
def Obligations.AddPushesExactSum : Prop :=
  decode [0x0B] = .ok [.add] ∧
  ∀ s : State, s.arch.stack.length ≤ 65535 →
    (s.arch.stack.length < 2 → Raises .add s .insufficientArguments) ∧
    (∀ rest b a, s.arch.stack = rest ++ [b, a] →
      (a.toNat + b.toNat < 2 ^ 64 → s.arch.pc.toNat < 2 ^ 64 - 1 →
        ∃ r : Word, r.toNat = a.toNat + b.toNat ∧
          Completes .add s { s.arch with stack := rest ++ [r], pc := s.arch.pc + 1 }) ∧
      (2 ^ 64 ≤ a.toNat + b.toNat → Raises .add s .arithmeticOverflow))

/-- R142: Sub pushes the top minus the element beneath it, or raises ArithmeticOverflow when that is negative. -/
def Obligations.SubPushesTopMinusBeneath : Prop :=
  decode [0x0C] = .ok [.sub] ∧
  ∀ s : State, s.arch.stack.length ≤ 65535 →
    (s.arch.stack.length < 2 → Raises .sub s .insufficientArguments) ∧
    (∀ rest b a, s.arch.stack = rest ++ [b, a] →
      (b.toNat ≤ a.toNat → s.arch.pc.toNat < 2 ^ 64 - 1 →
        ∃ r : Word, r.toNat + b.toNat = a.toNat ∧
          Completes .sub s { s.arch with stack := rest ++ [r], pc := s.arch.pc + 1 }) ∧
      (a.toNat < b.toNat → Raises .sub s .arithmeticOverflow))

/-- R143: Mul pushes the exact product, or raises ArithmeticOverflow when it is above 2^64 - 1. -/
def Obligations.MulPushesExactProduct : Prop :=
  decode [0x0D] = .ok [.mul] ∧
  ∀ s : State, s.arch.stack.length ≤ 65535 →
    (s.arch.stack.length < 2 → Raises .mul s .insufficientArguments) ∧
    (∀ rest b a, s.arch.stack = rest ++ [b, a] →
      (a.toNat * b.toNat < 2 ^ 64 → s.arch.pc.toNat < 2 ^ 64 - 1 →
        ∃ r : Word, r.toNat = a.toNat * b.toNat ∧
          Completes .mul s { s.arch with stack := rest ++ [r], pc := s.arch.pc + 1 }) ∧
      (2 ^ 64 ≤ a.toNat * b.toNat → Raises .mul s .arithmeticOverflow))

/-- R144: Div pushes the top divided by the element beneath it, rounded down (the rounding is PRESUMED, log 14), or
raises ArithmeticOverflow on a zero divisor. -/
def Obligations.DivPushesFloorQuotient : Prop :=
  decode [0x0E] = .ok [.div] ∧
  ∀ s : State, s.arch.stack.length ≤ 65535 →
    (s.arch.stack.length < 2 → Raises .div s .insufficientArguments) ∧
    (∀ rest b a, s.arch.stack = rest ++ [b, a] →
      (b.toNat ≠ 0 → s.arch.pc.toNat < 2 ^ 64 - 1 →
        ∃ r : Word, b.toNat * r.toNat ≤ a.toNat ∧ a.toNat < b.toNat * (r.toNat + 1) ∧
          Completes .div s { s.arch with stack := rest ++ [r], pc := s.arch.pc + 1 }) ∧
      (b.toNat = 0 → Raises .div s .arithmeticOverflow))

/-- R145: Mod pushes the remainder below the modulus that makes `a` a multiple of it plus the remainder, or raises
ArithmeticOverflow on a zero modulus (the pairing with Div's rounding is PRESUMED, log 14). -/
def Obligations.ModPushesMatchingRemainder : Prop :=
  decode [0x0F] = .ok [.mod] ∧
  ∀ s : State, s.arch.stack.length ≤ 65535 →
    (s.arch.stack.length < 2 → Raises .mod s .insufficientArguments) ∧
    (∀ rest b a, s.arch.stack = rest ++ [b, a] →
      (b.toNat ≠ 0 → s.arch.pc.toNat < 2 ^ 64 - 1 →
        ∃ r : Word, r.toNat < b.toNat ∧ a.toNat = b.toNat * (a.toNat / b.toNat) + r.toNat ∧
          Completes .mod s { s.arch with stack := rest ++ [r], pc := s.arch.pc + 1 }) ∧
      (b.toNat = 0 → Raises .mod s .arithmeticOverflow))

/-! ### Comparison and bitwise (45_compare_bitwise.md) -/

/-- R160: Cmp pushes 1 for equal operands and 0 for different ones. -/
def Obligations.CmpPushesEquality : Prop :=
  decode [0x10] = .ok [.cmp] ∧
  ∀ s : State, s.arch.stack.length ≤ 65535 →
    (s.arch.stack.length < 2 → Raises .cmp s .insufficientArguments) ∧
    (∀ rest b a, s.arch.stack = rest ++ [b, a] → s.arch.pc.toNat < 2 ^ 64 - 1 →
      (a = b → Completes .cmp s { s.arch with stack := rest ++ [1], pc := s.arch.pc + 1 }) ∧
      (a ≠ b → Completes .cmp s { s.arch with stack := rest ++ [0], pc := s.arch.pc + 1 }))

/-- R161: And, bit by bit. -/
def Obligations.AndPushesBitwiseAnd : Prop :=
  decode [0x11] = .ok [.and] ∧
  ∀ s : State, s.arch.stack.length ≤ 65535 →
    (s.arch.stack.length < 2 → Raises .and s .insufficientArguments) ∧
    (∀ rest b a, s.arch.stack = rest ++ [b, a] → s.arch.pc.toNat < 2 ^ 64 - 1 →
      ∃ r : Word, (∀ k, k < 64 → r.getLsbD k = (a.getLsbD k && b.getLsbD k)) ∧
        Completes .and s { s.arch with stack := rest ++ [r], pc := s.arch.pc + 1 })

/-- R162: Or, bit by bit. -/
def Obligations.OrPushesBitwiseOr : Prop :=
  decode [0x12] = .ok [.or] ∧
  ∀ s : State, s.arch.stack.length ≤ 65535 →
    (s.arch.stack.length < 2 → Raises .or s .insufficientArguments) ∧
    (∀ rest b a, s.arch.stack = rest ++ [b, a] → s.arch.pc.toNat < 2 ^ 64 - 1 →
      ∃ r : Word, (∀ k, k < 64 → r.getLsbD k = (a.getLsbD k || b.getLsbD k)) ∧
        Completes .or s { s.arch with stack := rest ++ [r], pc := s.arch.pc + 1 })

/-- R163: Not replaces the top by its complement, bit by bit and as a number. -/
def Obligations.NotReplacesTopByComplement : Prop :=
  decode [0x13] = .ok [.not] ∧
  ∀ s : State, s.arch.stack.length ≤ 65535 →
    (s.arch.stack = [] → Raises .not s .insufficientArguments) ∧
    (∀ rest a, s.arch.stack = rest ++ [a] → s.arch.pc.toNat < 2 ^ 64 - 1 →
      ∃ r : Word, (∀ k, k < 64 → r.getLsbD k = !a.getLsbD k) ∧ r.toNat + a.toNat = 2 ^ 64 - 1 ∧
        Completes .not s { s.arch with stack := rest ++ [r], pc := s.arch.pc + 1 })

/-- R164: Xor, bit by bit. -/
def Obligations.XorPushesBitwiseXor : Prop :=
  decode [0x14] = .ok [.xor] ∧
  ∀ s : State, s.arch.stack.length ≤ 65535 →
    (s.arch.stack.length < 2 → Raises .xor s .insufficientArguments) ∧
    (∀ rest b a, s.arch.stack = rest ++ [b, a] → s.arch.pc.toNat < 2 ^ 64 - 1 →
      ∃ r : Word, (∀ k, k < 64 → r.getLsbD k = (a.getLsbD k != b.getLsbD k)) ∧
        Completes .xor s { s.arch with stack := rest ++ [r], pc := s.arch.pc + 1 })

/-! ### All instructions: errors, frames, purity -/

/-- R206: in a valid running State an instruction raises exactly the error its row of the table gives, and otherwise
succeeds. -/
def Obligations.ErrorTableIsExact : Prop :=
  ∀ (i : Instr) (s : State), s.arch.stack.length ≤ 65535 → s.phase = .running →
    (∀ e, errorTable i s.arch = some e → Raises i s e) ∧
    (errorTable i s.arch = none → ∃ t, exec i s = .next t ∧ (t.phase = .running ∨ t.phase = .halted))

/-- R207, R11: a failing step leaves everything but the phase as it was. -/
def Obligations.FailedStepChangesNothing : Prop :=
  ∀ (i : Instr) (s t : State) (e : ExecutionError),
    s.phase = .running → exec i s = .next t → t.phase = .faulted e → t = { s with phase := .faulted e }

/-- R22: what each opcode does to pc, and that the engine adds nothing to it. -/
def Obligations.PcEffectOfEveryOpcode : Prop :=
  (∀ (i : Instr) (s t : State), s.phase = .running → exec i s = .next t →
    ((∃ e, t.phase = .faulted e) → t.arch.pc = s.arch.pc) ∧
    ((∀ e, t.phase ≠ .faulted e) → s.arch.pc.toNat < 2 ^ 64 - 1 →
      (i = .jump → s.arch.stack.getLast? = some t.arch.pc) ∧
      (i = .halt → t.arch.pc.toNat = s.arch.pc.toNat + s.cfg.haltPcDelta.val) ∧
      (i ≠ .jump → i ≠ .halt → t.arch.pc = s.arch.pc + 1))) ∧
  (∀ (s t : State), s.phase = .running → step s = .next t →
    (∀ i, fetch s = some i → ∃ u, exec i s = .next u ∧ t.arch = u.arch) ∧
    (fetch s = none → t.arch = s.arch))

/-- R29: the net depth change of every opcode whose step succeeds. -/
def Obligations.DepthChangeOfEveryOpcode : Prop :=
  ∀ (i : Instr) (s t : State), s.phase = .running → exec i s = .next t → (∀ e, t.phase ≠ .faulted e) →
    (t.arch.stack.length : Int) - s.arch.stack.length =
      match i with
      | .nop | .halt | .load | .set _ | .not | .read | .write | .jumpIf => 0
      | .push => 1
      | .pop | .jump | .add | .sub | .mul | .div | .mod | .cmp | .and | .or | .xor => -1
      | .store => -2

/-- R27, R29: an instruction that pops n elements leaves all elements beneath them in place. -/
def Obligations.StackBeneathOperandsIsUntouched : Prop :=
  ∀ (i : Instr) (s t : State), exec i s = .next t →
    s.arch.stack.take (s.arch.stack.length -
      match i with
      | .nop | .halt | .set _ | .push | .read | .write | .jumpIf => 0
      | .load | .pop | .jump | .not => 1
      | .store | .add | .sub | .mul | .div | .mod | .cmp | .and | .or | .xor => 2) <+: t.arch.stack

/-- R24: only Pop and Set write reg, and no instruction but Push depends on it. -/
def Obligations.RegisterReadByPushWrittenByPopAndSet : Prop :=
  (∀ (i : Instr) (s t : State), exec i s = .next t → i ≠ .pop → (∀ w, i ≠ .set w) → t.arch.reg = s.arch.reg) ∧
  (∀ (i : Instr) (s t : State) (w : Word), i ≠ .push → exec i s = .next t →
    ∃ v, exec i { s with arch := { s.arch with reg := w } } =
      .next { t with arch := { t.arch with reg := v } })

/-- R50, R110: every instruction but Store leaves every address and every key of memory as it was. -/
def Obligations.OnlyStoreChangesMemory : Prop :=
  ∀ (i : Instr) (s t : State), i ≠ .store → exec i s = .next t →
    ∀ b, memRead t.arch.mem b = memRead s.arch.mem b ∧ (hasKey t.arch.mem b ↔ hasKey s.arch.mem b)

/-- R111: Store leaves reg, and every address but the one it pops first, as they were. -/
def Obligations.StoreFrameOutsideItsAddress : Prop :=
  ∀ (s t : State) (addr : Word) (x : Arch), s.arch.mem.wf → exec .store s = .next t →
    popW s.arch = .ok (addr, x) →
    t.arch.reg = s.arch.reg ∧
    ∀ b, b ≠ addr → memRead t.arch.mem b = memRead s.arch.mem b ∧ (hasKey t.arch.mem b ↔ hasKey s.arch.mem b)

/-- R20, R32, R34: no instruction changes the parameters, the Program, the run mode or the trace; the phase changes
only by a Halt or an error. -/
def Obligations.InstructionsLeaveTheRestOfTheBlock : Prop :=
  ∀ (i : Instr) (s t : State), exec i s = .next t →
    t.cfg = s.cfg ∧ t.program = s.program ∧ t.mode = s.mode ∧ t.trace = s.trace ∧
    (t.phase = s.phase ∨ (i = .halt ∧ t.phase = .halted) ∨ ∃ e, t.phase = .faulted e)

/-- R31: no step of the block removes an address from keys(mem). -/
def Obligations.KeysNeverShrink : Prop :=
  ∀ (s t : State), step s = .next t → ∀ a, hasKey s.arch.mem a → hasKey t.arch.mem a

/-- R184: every instruction answers a next state, and what it does depends on the spec's State and HALT_PC_DELTA
alone, not on the Program, the run mode, the trace or the phase. -/
def Obligations.InstructionsDependOnTheStateAlone : Prop :=
  ∀ (i : Instr) (s s' : State), s'.arch = s.arch → s'.cfg.haltPcDelta = s.cfg.haltPcDelta →
    ∃ (x : Arch) (p : Option Phase),
      exec i s = .next { s with arch := x, phase := p.getD s.phase } ∧
      exec i s' = .next { s' with arch := x, phase := p.getD s'.phase }

/-! ### The run loop (49_run_loop.md) -/

/-- R181, R183, R188: a step in RUNNING executes the instruction at position pc: in silent mode it is exec of it, in
observed mode a successful step also emits the pair of the new State and the instruction. That a failed step emits
nothing and that a Halt is emitted are R188's own decisions, which the model follows (log 12, DESIGN CHOICE). -/
def Obligations.StepRunsTheInstructionAtPc : Prop :=
  ∀ (s : State) (p : Program) (i : Instr),
    s.phase = .running → s.program = some p → p[s.arch.pc.toNat]? = some i →
    (s.mode = .silent → step s = exec i s) ∧
    (s.mode = .observed → ∀ t, exec i s = .next t →
      ((∃ e, t.phase = .faulted e) → step s = .next t) ∧
      ((∀ e, t.phase ≠ .faulted e) → step s = .next { t with trace := t.trace ++ [(t.arch, i)] }))

/-- R182: before a fetch pc is compared with len over all 64 bits; at or past len the run ends with the State as it
is, below len it does not end. -/
def Obligations.RunEndsExactlyAtOrPastLen : Prop :=
  ∀ (s : State) (p : Program), s.phase = .running → s.program = some p →
    (p.length ≤ s.arch.pc.toNat →
      step s = .next { s with phase := .ended } ∧
      outcomeOf { s with phase := .ended } = some (.ended s.arch)) ∧
    (s.arch.pc.toNat < p.length → ∀ t, step s = .next t → t.phase ≠ .ended)

/-- R185: a step that fetches Halt stops the run with outcome Halted of the State Halt's step returned. -/
def Obligations.HaltStopsTheRun : Prop :=
  ∀ (s : State) (p : Program), s.phase = .running → s.program = some p → p[s.arch.pc.toNat]? = some .halt →
    ∃ t u, exec .halt s = .next u ∧ step s = .next t ∧ t.phase = .halted ∧
      outcomeOf t = some (.halted u.arch)

/-- R181, R187, R206, R208: a step whose instruction raises an error stops the run with the error and the State before
the step. That nothing is emitted, whatever the run mode, is R188's own decision, which the model follows (log 12,
DESIGN CHOICE). -/
def Obligations.ErrorStopsTheRunWithTheLastGoodState : Prop :=
  ∀ (s : State) (p : Program) (i : Instr) (e : ExecutionError),
    s.phase = .running → s.program = some p → p[s.arch.pc.toNat]? = some i → s.arch.stack.length ≤ 65535 →
    errorTable i s.arch = some e →
    step s = .next { s with phase := .faulted e } ∧
    outcomeOf { s with phase := .faulted e } = some (.faulted e s.arch)

/-- R188: the run mode influences nothing but the trace and itself. -/
def Obligations.ObserverInfluencesNothing : Prop :=
  ∀ (s t : State) (m : RunMode), step s = .next t →
    ∃ tr, step { s with mode := m } = .next { t with mode := m, trace := tr }

/-- R190: the terminal phases have no step (which the model renders as a fault, log 6), and of the host's actions only
reset leaves them. -/
def Obligations.TerminalPhasesAreLeftByResetOnly : Prop :=
  ∀ s : State,
    (s.phase = .halted ∨ s.phase = .ended ∨ (∃ e, s.phase = .faulted e) ∨ (∃ e, s.phase = .decodeFailed e)) →
    (∀ t, step s ≠ .next t) ∧
    (∀ act t, hostAct act s = .next t → act = .reset ∧ t.phase = .idle)

/-- R23: in a run pc is below 2^64 - 1 whenever an instruction is stepped, so that an instruction that advances pc
adds exactly one to it as a number. -/
def Obligations.PcStaysBelowTopInARun : Prop :=
  ∀ (s t : State) (i : Instr), Inv s → s.phase = .running → fetch s = some i → step s = .next t →
    s.arch.pc.toNat + 1 ≤ 2 ^ 64 - 1 ∧
    (i ≠ .jump → i ≠ .halt → t.phase = .running → t.arch.pc.toNat = s.arch.pc.toNat + 1)

/-- R58, R32: no step of a run changes the Program, so the instruction at a position is the same at every fetch. -/
def Obligations.ProgramIsImmutableInARun : Prop :=
  ∀ (s t : State), s.phase = .running → step s = .next t →
    t.program = s.program ∧ t.cfg = s.cfg ∧ t.mode = s.mode

/-! ### Phases, decoding and the host (49_run_loop.md, 60_exceptions.md, 70_reset_and_hazards.md) -/

/-- R180: nothing happens in IDLE and READY until the host acts (that a step there changes nothing is the model's
reading of 'nothing', log 7). -/
def Obligations.NothingHappensUntilTheHostActs : Prop :=
  ∀ s : State, s.phase = .idle ∨ s.phase = .ready → step s = .next s

/-- R180, R201, R79: DECODING ends in DECODE_FAILED with the error and everything else untouched, or in READY with the
whole Program; a Program beyond PROG_MAX_LEN is refused (the model's choice, log 2; decoding as one step is log 13). -/
def Obligations.DecodingIsAllOrNothing : Prop :=
  ∀ (s : State) (bytes : List Byte), s.phase = .decoding bytes →
    (∀ e, decode bytes = .error e →
      step s = .next { s with phase := .decodeFailed e } ∧
      decodeReport { s with phase := .decodeFailed e } = some (.error e)) ∧
    (∀ p, decode bytes = .ok p →
      (p.length ≤ s.cfg.progMaxLen.toNat → step s = .next { s with phase := .ready, program := some p }) ∧
      (s.cfg.progMaxLen.toNat < p.length → step s = .refused .programTooLong))

/-- R230, R231: reset in any phase gives the default State, no Program, phase IDLE; and so is the state after reset.
That reset acts in every phase and leads to IDLE is R230's own reading, the choice of log 16 (DESIGN CHOICE). -/
def Obligations.ResetGivesTheDefaultState : Prop :=
  ∀ s : State, ∃ t, hostAct .reset s = .next t ∧
    ∀ u : State, u = t ∨ u = State.reset →
      u.phase = .idle ∧ u.program = none ∧ u.arch.pc = 0 ∧ u.arch.reg = 0 ∧ u.arch.stack = [] ∧
      (∀ a, memRead u.arch.mem a = 0 ∧ ¬hasKey u.arch.mem a)

/-- R240, R230: during DECODING and RUNNING the host can do nothing but reset (that the model refuses the other actions by
name is its own form of 'cannot', log 9). -/
def Obligations.HostIsShutOutOfDecodingAndRunning : Prop :=
  ∀ (s : State) (act : HostAction),
    ((∃ bytes, s.phase = .decoding bytes) ∨ s.phase = .running) →
    act = .reset ∨ hostAct act s = .refused .hostActionNotTaken

/-- R232: in READY the host may load any valid State as the launch State; an invalid one is refused (log 9). That
keys(mem) becomes that of the launch State is the model's choice (log 20, DESIGN CHOICE). -/
def Obligations.LaunchStateIsAnyValidState : Prop :=
  ∀ (s : State) (a : Arch), s.phase = .ready →
    (a.stack.length ≤ 65535 → a.mem.wf → hostAct (.launch a) s = .next { s with arch := a }) ∧
    (65535 < a.stack.length → hostAct (.launch a) s = .refused .launchStateNotValid)

/-- R233: from reset, with any parameters that admit the input and its Program: bytes presented, decoded, run started
gives the run loop at position 0 of the Program over the default State (decoding as one step and the empty trace at
reset are the model's choices, logs 13 and 12). -/
def Obligations.SetupLeadsFromResetToTheRun : Prop :=
  ∀ (c : OpenParams) (bytes : List Byte) (p : Program) (m : RunMode),
    inputFits (.of c) bytes → decode bytes = .ok p → programFits (.of c) p →
    ∃ s₁ s₂ s₃, hostAct (.present bytes) { State.reset with cfg := c } = .next s₁ ∧ step s₁ = .next s₂ ∧
      hostAct (.start m) s₂ = .next s₃ ∧
      s₃.phase = .running ∧ s₃.program = some p ∧ s₃.arch = Arch.default ∧ s₃.mode = m ∧ s₃.trace = []

/-! ### Encoding (30_encoding.md) -/

/-- R72, R74, R78: words written out from the opcode map, a program of six instructions, and the empty input. -/
def Obligations.WrittenOutWordsDecode : Prop :=
  decode [] = .ok [] ∧
  decode [0x06, 0x00, 0x00, 0x00, 0x00, 0x00, 0x00, 0x00, 0x05, 0x04, 0x06, 0x00, 0x00, 0x00, 0x00, 0x00, 0x00, 0x00,
    0x03, 0x04, 0x0B, 0x01] = .ok [.set 5, .push, .set 3, .push, .add, .halt] ∧
  decode [0x02, 0x03, 0x09, 0x07, 0x10, 0x13] = .ok [.load, .store, .jump, .read, .cmp, .not] ∧
  decodeTableWord 8 0x0A = some .jumpIf ∧ decodeTableWord 8 0x15 = none

/-- R74: the literal of Set is the 8 bytes after the opcode byte, first byte most significant. -/
def Obligations.LiteralIsBigEndian : Prop :=
  ∀ p0 p1 p2 p3 p4 p5 p6 p7 : Byte,
    ∃ w : Word, decodeOne [0x06, p0, p1, p2, p3, p4, p5, p6, p7] = .ok (.set w) ∧
      w.toNat = p0.toNat * 2 ^ 56 + p1.toNat * 2 ^ 48 + p2.toNat * 2 ^ 40 + p3.toNat * 2 ^ 32 +
        p4.toNat * 2 ^ 24 + p5.toNat * 2 ^ 16 + p6.toNat * 2 ^ 8 + p7.toNat

/-- R76: the single-instruction decoder, case by case; a literal-load slice longer than 9 bytes is left open. -/
def Obligations.DecodeOneCaseByCase : Prop :=
  decodeOne [] = .error .noInput ∧
  (∀ (b : Byte) (rest : List Byte), 0x14 < b.toNat → decodeOne (b :: rest) = .error .unrecognizedOpcode) ∧
  (∀ rest : List Byte, rest.length < 8 → decodeOne (0x06 :: rest) = .error .incompleteLiteral) ∧
  (∀ rest : List Byte, rest.length = 8 → ∃ w, decodeOne (0x06 :: rest) = .ok (.set w)) ∧
  (∀ (b : Byte) (rest : List Byte), b.toNat ≤ 0x14 → b ≠ 0x06 → rest ≠ [] →
    decodeOne (b :: rest) = .error .unexpectedPayload) ∧
  (∀ b : Byte, b.toNat ≤ 0x14 → b ≠ 0x06 → ∃ i, decodeOne [b] = .ok i ∧ opcode i = b ∧ ∀ w, i ≠ .set w)

/-- R84: decode(encode(p)) = p for every Program. -/
def Obligations.DecodeOfEncodeIsTheProgram : Prop :=
  ∀ p : Program, decode (encodeProgram p) = .ok p

/-- R84: encode(decode(bytes)) = bytes whenever decode succeeds. -/
def Obligations.EncodeOfDecodeIsTheInput : Prop :=
  ∀ (bytes : List Byte) (p : Program), decode bytes = .ok p → encodeProgram p = bytes

/-- R80: the length law of a successful decode. -/
def Obligations.DecodedLengthLaw : Prop :=
  ∀ (bytes : List Byte) (p : Program), decode bytes = .ok p →
    bytes.length = p.length + 8 * p.countP (fun i => opcode i == 0x06) ∧ p.length ≤ bytes.length

/-- R77: through decode only two failure kinds can occur. -/
def Obligations.OnlyTwoDecodeFailuresOccur : Prop :=
  ∀ (bytes : List Byte) (e : DecodeError), decode bytes = .error e →
    (e.kind = .unrecognizedOpcode ∨ e.kind = .incompleteLiteral) ∧ e.offset < bytes.length

/-- R81, R79: a byte above 0x14 at an opcode position, after any instructions, fails the decode with its own offset,
whatever follows. -/
def Obligations.UnrecognizedByteFailsAtItsOffset : Prop :=
  ∀ (p : Program) (b : Byte) (rest : List Byte), 0x14 < b.toNat →
    decode (encodeProgram p ++ b :: rest) =
      .error { kind := .unrecognizedOpcode, offset := (encodeProgram p).length }

/-- R75, R200: an incomplete literal is reported at the offset of its 0x06 byte. -/
def Obligations.IncompleteLiteralFailsAtItsOpcode : Prop :=
  ∀ (p : Program) (rest : List Byte), rest.length < 8 →
    decode (encodeProgram p ++ 0x06 :: rest) =
      .error { kind := .incompleteLiteral, offset := (encodeProgram p).length }

/-! ### Invariants -/

/-- The invariant holds after reset, with any parameters (its clause on the trace uses the model's reset value of the
trace, log 12). -/
def Obligations.ResetMeetsInvariant : Prop :=
  ∀ c : OpenParams, Inv { State.reset with cfg := c }

/-- R39, R28: every step keeps the invariant, from every state that meets it. -/
def Obligations.StepKeepsInvariant : Prop :=
  ∀ (s t : State), Inv s → step s = .next t → Inv t

/-- R39, R232, R230: every action of the host keeps the invariant. For reset, the clause on the trace (empty before a
run) holds because reset empties the trace, the model's choice (logs 16 and 12, DESIGN CHOICE). -/
def Obligations.HostActionsKeepInvariant : Prop :=
  ∀ (s t : State) (act : HostAction), Inv s → hostAct act s = .next t → Inv t

/-- R28: in every reachable state the depth is at most 65535 and the memory canonical, and so is every State that an
observer was given. -/
def Obligations.ReachableStatesAreValid : Prop :=
  ∀ s : State, Reachable s →
    s.arch.stack.length ≤ 65535 ∧ s.arch.mem.wf ∧
    ∀ e ∈ s.trace, e.1.stack.length ≤ 65535 ∧ e.1.mem.wf
end

