-- ==== Sys2Proof/Laws/Decode.lean ====
section
/-! SUPPORT. The spec lemmas of the decoder's parts: the literal bytes are passed over, and the slice at an opcode
position. -/

namespace Sys2Proof

@[simp] theorem decodeFrom_nil (skip off : Nat) : decodeFrom skip off [] = .ok [] := by
  cases skip <;> rfl

/-- Literal bytes "are never looked at as opcodes" (R73): they only move the offset. -/
theorem decodeFrom_skip (l rest : List Byte) (off : Nat) :
    decodeFrom l.length off (l ++ rest) = decodeFrom 0 (off + l.length) rest := by
  induction l generalizing off with
  | nil => rfl
  | cons b l ih =>
    show decodeFrom l.length (off + 1) (l ++ rest) = _
    rw [ih, List.length_cons]
    congr 1
    omega

@[simp] theorem literalPayload_length (w : Word) : (literalPayload w).length = 8 := rfl

end Sys2Proof
end

