-- ==== Sys2Proof/Laws/Memory.lean ====
section
/-! SUPPORT. The memory subsystem's laws: read after write (R51, R52), the keys (R31), and the canonical form kept by
every operation. -/

namespace Sys2Proof.Machine

/-! ### Reading after a write -/

theorem cellsRead_below {cs : List (Nat × Word)} {a : Nat} (h : ∀ c ∈ cs, a < c.1) :
    cellsRead cs a = Memory.unlisted := by
  induction cs with
  | nil => rfl
  | cons c cs ih =>
    have hc := h c (by simp)
    rw [cellsRead, if_neg (by omega), ih fun d hd => h d (by simp [hd])]

theorem cellsRead_cellsWrite {cs : List (Nat × Word)} (hs : cs.Pairwise (fun c d => c.1 < d.1)) (a b : Nat) (v : Word) :
    cellsRead (cellsWrite cs a v) b = if b = a then v else cellsRead cs b := by
  induction cs with
  | nil =>
    by_cases hv : v = Memory.unlisted <;> by_cases hb : a = b <;>
      simp [cellsWrite, cellsRead, hv, hb, eq_comm (a := b)]
  | cons c cs ih =>
    obtain ⟨hc, hs⟩ := List.pairwise_cons.mp hs
    have above {x : Nat} (hx : x ≤ c.1) : cellsRead cs x = Memory.unlisted :=
      cellsRead_below fun d hd => by have := hc d hd; omega
    unfold cellsWrite
    split
    · rename_i hlt
      by_cases hb : b = a
      · subst hb
        have hne : c.1 ≠ b := by omega
        by_cases hv : v = Memory.unlisted <;> simp [hv, cellsRead, hne, above (Nat.le_of_lt hlt)]
      · by_cases hv : v = Memory.unlisted <;> simp [hv, cellsRead, hb, Ne.symm hb]
    · split
      · rename_i heq
        by_cases hb : b = a
        · by_cases hv : v = Memory.unlisted <;> simp [hv, cellsRead, hb, above (Nat.le_of_eq heq)]
        · have hne : c.1 ≠ b := by omega
          by_cases hv : v = Memory.unlisted <;> simp [hv, cellsRead, hb, Ne.symm hb, hne]
      · by_cases hcb : c.1 = b
        · have hne : b ≠ a := by omega
          simp [cellsRead, hcb, hne]
        · simp [cellsRead, hcb, ih hs]

/-- `MemWrite` then `MemRead`: the written address holds the value, every other address what it held (R52). -/
theorem memRead_memWrite {m : Memory} (hm : m.wf) (a b v : Word) :
    memRead (memWrite m a v) b = if b = a then v else memRead m b := by
  simp [memRead, memWrite, cellsRead_cellsWrite hm.1, BitVec.toNat_inj]

/-! ### The keys -/

theorem mem_keysAdd {ks : List Nat} {a k : Nat} : k ∈ keysAdd ks a ↔ k = a ∨ k ∈ ks := by
  induction ks with
  | nil => simp [keysAdd]
  | cons x xs ih =>
    unfold keysAdd
    split
    · simp
    · split
      · rename_i heq
        simp [heq]
      · simp [ih, or_left_comm]

theorem keysAdd_rising {ks : List Nat} (h : ks.Pairwise (· < ·)) (a : Nat) : (keysAdd ks a).Pairwise (· < ·) := by
  induction ks with
  | nil => simp [keysAdd]
  | cons x xs ih =>
    obtain ⟨hx, hxs⟩ := List.pairwise_cons.mp h
    unfold keysAdd
    split
    · rename_i hlt
      exact List.pairwise_cons.mpr ⟨fun k hk => by
        rcases List.mem_cons.mp hk with rfl | hk
        · exact hlt
        · have := hx k hk; omega, h⟩
    · split
      · exact h
      · exact List.pairwise_cons.mpr ⟨fun k hk => by
          rcases mem_keysAdd.mp hk with rfl | hk
          · omega
          · exact hx k hk, ih hxs⟩

/-- `MemWrite` adds its address to the keys, "whatever `v` is", and removes none (R31). -/
theorem hasKey_memWrite (m : Memory) (a b v : Word) : hasKey (memWrite m a v) b ↔ b = a ∨ hasKey m b := by
  simp [hasKey, memWrite, mem_keysAdd, BitVec.toNat_inj]

/-! ### The canonical form -/

theorem mem_cellsWrite {cs : List (Nat × Word)} {a : Nat} {v : Word} {c : Nat × Word} (h : c ∈ cellsWrite cs a v) :
    (c = (a, v) ∧ v ≠ Memory.unlisted) ∨ c ∈ cs := by
  induction cs with
  | nil =>
    unfold cellsWrite at h
    split at h
    · simp at h
    · rename_i hv
      exact .inl ⟨by simpa using h, hv⟩
  | cons d ds ih =>
    unfold cellsWrite at h
    by_cases hv : v = Memory.unlisted
    · simp only [hv, if_true] at h ih
      split at h
      · exact .inr h
      · split at h
        · exact .inr (List.mem_cons_of_mem _ h)
        · rcases List.mem_cons.mp h with rfl | h
          · exact .inr (by simp)
          · exact (ih h).elim (fun x => absurd rfl x.2) fun x => .inr (List.mem_cons_of_mem _ x)
    · simp only [hv, if_false] at h
      split at h
      · exact (List.mem_cons.mp h).elim (fun x => .inl ⟨x, hv⟩) .inr
      · split at h
        · exact (List.mem_cons.mp h).elim (fun x => .inl ⟨x, hv⟩) fun x => .inr (List.mem_cons_of_mem _ x)
        · rcases List.mem_cons.mp h with rfl | h
          · exact .inr (by simp)
          · exact (ih h).imp id (List.mem_cons_of_mem _)

theorem cellsWrite_rising {cs : List (Nat × Word)} (h : cs.Pairwise (fun c d => c.1 < d.1)) (a : Nat) (v : Word) :
    (cellsWrite cs a v).Pairwise (fun c d => c.1 < d.1) := by
  induction cs with
  | nil => unfold cellsWrite; split <;> simp
  | cons x xs ih =>
    obtain ⟨hx, hxs⟩ := List.pairwise_cons.mp h
    unfold cellsWrite
    split
    · rename_i hlt
      split
      · exact h
      · exact List.pairwise_cons.mpr ⟨fun c hc => by
          rcases List.mem_cons.mp hc with rfl | hc
          · exact hlt
          · have := hx c hc
            show a < c.1
            omega, h⟩
    · split
      · rename_i heq
        split
        · exact hxs
        · exact List.pairwise_cons.mpr ⟨fun c hc => by have := hx c hc; show a < c.1; omega, hxs⟩
      · exact List.pairwise_cons.mpr ⟨fun c hc => by
          rcases mem_cellsWrite hc with ⟨rfl, -⟩ | hc
          · show x.1 < a
            omega
          · exact hx c hc, ih hxs⟩

/-- Every write keeps the canonical form. -/
theorem memWrite_wf {m : Memory} (hm : m.wf) (a v : Word) : (memWrite m a v).wf := by
  obtain ⟨hr, hc, hk, hb⟩ := hm
  refine ⟨cellsWrite_rising hr _ _, fun c h => ?_, keysAdd_rising hk _, fun k h => ?_⟩
  · rcases mem_cellsWrite h with ⟨rfl, hv⟩ | h
    · exact ⟨hv, mem_keysAdd.mpr (.inl rfl)⟩
    · exact ⟨(hc c h).1, mem_keysAdd.mpr (.inr (hc c h).2)⟩
  · rcases mem_keysAdd.mp h with rfl | h
    · exact a.isLt
    · exact hb k h

/-- Reset's memory is in canonical form. -/
theorem reset_mem_wf : State.reset.arch.mem.wf := by decide

end Sys2Proof.Machine
end

