-- ==== Sys2Proof/Laws/State.lean ====
section
/-! SUPPORT. One lemma per field per update of State, and of Arch for the operations that change one field of it, so
that no proof unfolds a record update. -/

namespace Sys2Proof.Machine

@[simp] theorem State.config_toOpenParams (s : State) : s.config.toOpenParams = s.cfg := rfl
@[simp] theorem State.config_toSettledParams (s : State) : s.config.toSettledParams = Config.settled := rfl

@[simp] theorem State.setArch_cfg (s : State) (a : Arch) : (s.setArch a).cfg = s.cfg := rfl
@[simp] theorem State.setArch_phase (s : State) (a : Arch) : (s.setArch a).phase = s.phase := rfl
@[simp] theorem State.setArch_program (s : State) (a : Arch) : (s.setArch a).program = s.program := rfl
@[simp] theorem State.setArch_mode (s : State) (a : Arch) : (s.setArch a).mode = s.mode := rfl
@[simp] theorem State.setArch_arch (s : State) (a : Arch) : (s.setArch a).arch = a := rfl
@[simp] theorem State.setArch_trace (s : State) (a : Arch) : (s.setArch a).trace = s.trace := rfl

@[simp] theorem State.setPhase_cfg (s : State) (p : Phase) : (s.setPhase p).cfg = s.cfg := rfl
@[simp] theorem State.setPhase_phase (s : State) (p : Phase) : (s.setPhase p).phase = p := rfl
@[simp] theorem State.setPhase_program (s : State) (p : Phase) : (s.setPhase p).program = s.program := rfl
@[simp] theorem State.setPhase_mode (s : State) (p : Phase) : (s.setPhase p).mode = s.mode := rfl
@[simp] theorem State.setPhase_arch (s : State) (p : Phase) : (s.setPhase p).arch = s.arch := rfl
@[simp] theorem State.setPhase_trace (s : State) (p : Phase) : (s.setPhase p).trace = s.trace := rfl

@[simp] theorem State.setProgram_cfg (s : State) (p : Program) : (s.setProgram p).cfg = s.cfg := rfl
@[simp] theorem State.setProgram_phase (s : State) (p : Program) : (s.setProgram p).phase = s.phase := rfl
@[simp] theorem State.setProgram_program (s : State) (p : Program) : (s.setProgram p).program = some p := rfl
@[simp] theorem State.setProgram_mode (s : State) (p : Program) : (s.setProgram p).mode = s.mode := rfl
@[simp] theorem State.setProgram_arch (s : State) (p : Program) : (s.setProgram p).arch = s.arch := rfl
@[simp] theorem State.setProgram_trace (s : State) (p : Program) : (s.setProgram p).trace = s.trace := rfl

@[simp] theorem State.setMode_cfg (s : State) (m : RunMode) : (s.setMode m).cfg = s.cfg := rfl
@[simp] theorem State.setMode_phase (s : State) (m : RunMode) : (s.setMode m).phase = s.phase := rfl
@[simp] theorem State.setMode_program (s : State) (m : RunMode) : (s.setMode m).program = s.program := rfl
@[simp] theorem State.setMode_mode (s : State) (m : RunMode) : (s.setMode m).mode = m := rfl
@[simp] theorem State.setMode_arch (s : State) (m : RunMode) : (s.setMode m).arch = s.arch := rfl
@[simp] theorem State.setMode_trace (s : State) (m : RunMode) : (s.setMode m).trace = s.trace := rfl

@[simp] theorem State.emit_cfg (s : State) (i : Instr) : (s.emit i).cfg = s.cfg := rfl
@[simp] theorem State.emit_phase (s : State) (i : Instr) : (s.emit i).phase = s.phase := rfl
@[simp] theorem State.emit_program (s : State) (i : Instr) : (s.emit i).program = s.program := rfl
@[simp] theorem State.emit_mode (s : State) (i : Instr) : (s.emit i).mode = s.mode := rfl
@[simp] theorem State.emit_arch (s : State) (i : Instr) : (s.emit i).arch = s.arch := rfl
@[simp] theorem State.emit_trace (s : State) (i : Instr) : (s.emit i).trace = s.trace ++ [(s.arch, i)] := rfl

@[simp] theorem advance_reg (a : Arch) : (advance a).reg = a.reg := rfl
@[simp] theorem advance_stack (a : Arch) : (advance a).stack = a.stack := rfl
@[simp] theorem advance_mem (a : Arch) : (advance a).mem = a.mem := rfl
@[simp] theorem advance_pc (a : Arch) : (advance a).pc = nextPc a.pc := rfl

@[simp] theorem advanceHalt_reg (d : Fin 2) (a : Arch) : (advanceHalt d a).reg = a.reg := by
  unfold advanceHalt; split <;> rfl

@[simp] theorem advanceHalt_stack (d : Fin 2) (a : Arch) : (advanceHalt d a).stack = a.stack := by
  unfold advanceHalt; split <;> rfl

@[simp] theorem advanceHalt_mem (d : Fin 2) (a : Arch) : (advanceHalt d a).mem = a.mem := by
  unfold advanceHalt; split <;> rfl

@[simp] theorem advanceHalt_pc (d : Fin 2) (a : Arch) :
    (advanceHalt d a).pc = if d = 0 then a.pc else nextPc a.pc := by
  unfold advanceHalt; split <;> rfl

end Sys2Proof.Machine
end

