-- ==== Sys2Proof/Laws/Ops.lean ====
section
/-! SUPPORT. One spec lemma per shared operation, which a proof cites instead of unfolding it: the stack controller,
the operand forms, the checked operations, and the two ends of a step. -/

namespace Sys2Proof.Machine

/-! ### The program counter -/

theorem nextPc_of_lt {pc : Word} (h : pc.toNat < 2 ^ 64 - 1) : nextPc pc = pc + 1 := by
  have : pc ≠ BitVec.allOnes 64 := by
    rintro rfl
    simp at h
  rw [nextPc, if_neg this]

/-! ### The stack controller -/

theorem requireDepth_short {n : Nat} {a : Arch} (h : a.stack.length < n) :
    requireDepth n a = .error .insufficientArguments := if_pos h

theorem requireDepth_enough {n : Nat} {a : Arch} (h : n ≤ a.stack.length) : requireDepth n a = .ok () :=
  if_neg (by omega)

theorem popW_empty {a : Arch} (h : a.stack = []) : popW a = .error .stackEmpty := by
  simp [popW, h]

theorem popW_append {a : Arch} {r : List Word} {v : Word} (h : a.stack = r ++ [v]) :
    popW a = .ok (v, { a with stack := r }) := by
  simp [popW, h]

theorem pushW_full {a : Arch} (v : Word) (h : a.stack.length = stackCap) : pushW v a = .error .stackFull := if_pos h

theorem pushW_room {a : Arch} (v : Word) (h : a.stack.length < stackCap) :
    pushW v a = .ok { a with stack := a.stack ++ [v] } := if_neg (by omega)

/-- A stack of two or more elements ends in `b`, then `a` on top (R148). -/
theorem stack_two {l : List Word} (h : 2 ≤ l.length) : ∃ r b a, l = r ++ [b, a] := by
  obtain ⟨r, a, rfl⟩ := List.eq_nil_or_concat l |>.resolve_left (by rintro rfl; simp at h)
  obtain ⟨r, b, rfl⟩ := List.eq_nil_or_concat r |>.resolve_left (by rintro rfl; simp at h)
  exact ⟨r, b, a, by simp⟩

/-- A stack that is not empty has a top. -/
theorem stack_one {l : List Word} (h : 1 ≤ l.length) : ∃ r a, l = r ++ [a] := by
  obtain ⟨r, a, rfl⟩ := List.eq_nil_or_concat l |>.resolve_left (by rintro rfl; simp at h)
  exact ⟨r, a, by simp⟩

/-! ### The operand forms -/

theorem binaryStep_short {op : Word → Word → Except ExecutionError Word} {x : Arch} (h : x.stack.length < 2) :
    binaryStep op x = .error .insufficientArguments := by
  rw [binaryStep, requireDepth_short h]
  rfl

/-- The two-operand form on a stack that holds its operands: everything hangs on the operation's own result. -/
theorem binaryStep_append {op : Word → Word → Except ExecutionError Word} {x : Arch} {r : List Word} {a b : Word}
    (h : x.stack = r ++ [b, a]) (hv : x.stack.length ≤ stackCap) :
    binaryStep op x =
      match op a b with
      | .error e => .error e
      | .ok w => .ok { x with stack := r ++ [w], pc := nextPc x.pc } := by
  have h1 : popW x = .ok (a, { x with stack := r ++ [b] }) := popW_append (by simp [h])
  have h2 : popW { x with stack := r ++ [b] } = .ok (b, { x with stack := r }) := popW_append rfl
  have h3 (w : Word) : pushW w { x with stack := r } = .ok { x with stack := r ++ [w] } :=
    pushW_room w (by simp [h] at hv ⊢; omega)
  have h0 : requireDepth 2 x = .ok () := requireDepth_enough (by simp [h])
  cases hop : op a b <;>
    simp [binaryStep, h0, h1, h2, h3, hop, bind, Except.bind, pure, Except.pure, advance]

theorem unaryStep_short {op : Arch → Word → Word} {x : Arch} (h : x.stack.length < 1) :
    unaryStep op x = .error .insufficientArguments := by
  rw [unaryStep, requireDepth_short h]
  rfl

/-- The one-operand form on a stack that holds its operand. -/
theorem unaryStep_append {op : Arch → Word → Word} {x : Arch} {r : List Word} {a : Word}
    (h : x.stack = r ++ [a]) (hv : x.stack.length ≤ stackCap) :
    unaryStep op x =
      .ok { x with stack := r ++ [op { x with stack := r } a], pc := nextPc x.pc } := by
  have h1 : popW x = .ok (a, { x with stack := r }) := popW_append h
  have h3 (w : Word) : pushW w { x with stack := r } = .ok { x with stack := r ++ [w] } :=
    pushW_room w (by simp [h] at hv ⊢; omega)
  have h0 : requireDepth 1 x = .ok () := requireDepth_enough (by simp [h])
  simp [unaryStep, h0, h1, h3, bind, Except.bind, pure, Except.pure, advance]

/-- What the two-operand form needs and leaves when it succeeds, in every State. -/
theorem binaryStep_cases {op : Word → Word → Except ExecutionError Word} {x y : Arch} (h : binaryStep op x = .ok y) :
    ∃ r b a w, x.stack = r ++ [b, a] ∧ op a b = .ok w ∧ y = { x with stack := r ++ [w], pc := nextPc x.pc } := by
  rcases Nat.lt_or_ge x.stack.length 2 with hl | hl
  · rw [binaryStep_short hl] at h
    cases h
  · obtain ⟨r, b, a, hs⟩ := stack_two hl
    have h1 : popW x = .ok (a, { x with stack := r ++ [b] }) := popW_append (by simp [hs])
    have h2 : popW { x with stack := r ++ [b] } = .ok (b, { x with stack := r }) := popW_append rfl
    have h0 : requireDepth 2 x = .ok () := requireDepth_enough hl
    cases hop : op a b with
    | error e => simp [binaryStep, h0, h1, h2, bind, Except.bind, hop] at h
    | ok w =>
      refine ⟨r, b, a, w, hs, hop, ?_⟩
      simp only [binaryStep, h0, h1, h2, bind, Except.bind, pure, Except.pure, pushW, hop] at h
      split at h
      · cases h
      · rename_i heq
        split at heq <;> cases heq
        cases h
        rfl

/-- What the one-operand form needs and leaves when it succeeds, in every State. -/
theorem unaryStep_cases {op : Arch → Word → Word} {x y : Arch} (h : unaryStep op x = .ok y) :
    ∃ r a, x.stack = r ++ [a] ∧
      y = { x with stack := r ++ [op { x with stack := r } a], pc := nextPc x.pc } := by
  rcases Nat.lt_or_ge x.stack.length 1 with hl | hl
  · rw [unaryStep_short hl] at h
    cases h
  · obtain ⟨r, a, hs⟩ := stack_one hl
    refine ⟨r, a, hs, ?_⟩
    have h1 : popW x = .ok (a, { x with stack := r }) := popW_append hs
    have h0 : requireDepth 1 x = .ok () := requireDepth_enough hl
    simp only [unaryStep, h0, h1, bind, Except.bind, pure, Except.pure, pushW] at h
    split at h
    · cases h
    · rename_i heq
      split at heq <;> cases heq
      cases h
      rfl

/-! ### The checked operations -/

/-- A mathematical result that is a Word is stored exactly; any other raises `ArithmeticOverflow` (R140). -/
theorem narrow_spec (z : Int) :
    (∃ r : Word, narrow z = .ok r ∧ (r.toNat : Int) = z ∧ 0 ≤ z ∧ z < 2 ^ 64) ∨
    (narrow z = .error .arithmeticOverflow ∧ (z < 0 ∨ 2 ^ 64 ≤ z)) := by
  unfold narrow
  split
  · rename_i h
    exact .inl ⟨_, rfl, by rw [BitVec.toNat_ofInt]; omega, h.1, h.2⟩
  · exact .inr ⟨rfl, by omega⟩

/-! ### The two ends of a step -/

/-- Everything `commit` can do: take the working copy, or the error. -/
theorem commit_cases {r : Except ExecutionError Arch} {s t : State} (h : commit r s = .next t) :
    (∃ a, r = .ok a ∧ t = s.setArch a) ∨ (∃ e, r = .error e ∧ t = s.setPhase (.faulted e)) := by
  cases r with
  | ok a => exact .inl ⟨a, rfl, by simpa [commit, eq_comm] using h⟩
  | error e => exact .inr ⟨e, rfl, by simpa [commit, raise, eq_comm] using h⟩

@[simp] theorem commit_ok (a : Arch) (s : State) : commit (.ok a) s = .next (s.setArch a) := rfl

@[simp] theorem commit_error (e : ExecutionError) (s : State) :
    commit (.error e) s = .next (s.setPhase (.faulted e)) := rfl

/-- `commit` always answers a next state. -/
theorem commit_next (r : Except ExecutionError Arch) (s : State) : ∃ t, commit r s = .next t := by
  cases r <;> exact ⟨_, rfl⟩

/-- Every meaning but Halt's is a transaction on the spec's State: a working copy committed, or an error (R11). -/
theorem exec_transaction (i : Instr) (hi : i ≠ .halt) (s : State) : ∃ r, exec i s = commit r s := by
  cases i with
  | halt => exact absurd rfl hi
  | nop => exact ⟨.ok (advance s.arch), rfl⟩
  | set w => exact ⟨.ok (advance { s.arch with reg := w }), rfl⟩
  | read => exact ⟨.error .illegalInstruction, rfl⟩
  | write => exact ⟨.error .illegalInstruction, rfl⟩
  | jumpIf => exact ⟨.error .illegalInstruction, rfl⟩
  | _ => exact ⟨_, rfl⟩

end Sys2Proof.Machine
end

