-- ==== Sys2Proof/Laws/Exec.lean ====
section
/-! SUPPORT. What an instruction and a step of the run loop can do, said once: `exec_cases` inverts every meaning into
the working copy it commits (`Effect`), an error, or Halt's stop, and `step_running_cases` inverts a step in
`RUNNING`. Frames and invariants follow from these without unfolding a meaning. -/

namespace Sys2Proof.Machine

/-- The instructions of the two-operand form. -/
def twoOperand : List Instr := [.add, .sub, .mul, .div, .mod, .cmp, .and, .or, .xor]

/-- What a successful step leaves of the spec's State, less the value a two-operand instruction computes. -/
inductive Effect : Instr → Arch → Arch → Prop
  | nop (a : Arch) : Effect .nop a { a with pc := nextPc a.pc }
  | set (w : Word) (a : Arch) : Effect (.set w) a { a with reg := w, pc := nextPc a.pc }
  | load {a : Arch} {r : List Word} {x : Word} (h : a.stack = r ++ [x]) :
      Effect .load a { a with stack := r ++ [memRead a.mem x], pc := nextPc a.pc }
  | not {a : Arch} {r : List Word} {x : Word} (h : a.stack = r ++ [x]) :
      Effect .not a { a with stack := r ++ [~~~x], pc := nextPc a.pc }
  | store {a : Arch} {r : List Word} {v x : Word} (h : a.stack = r ++ [v, x]) :
      Effect .store a { a with stack := r, mem := memWrite a.mem x v, pc := nextPc a.pc }
  | push {a : Arch} (h : a.stack.length ≠ stackCap) :
      Effect .push a { a with stack := a.stack ++ [a.reg], pc := nextPc a.pc }
  | pop {a : Arch} {r : List Word} {x : Word} (h : a.stack = r ++ [x]) :
      Effect .pop a { a with stack := r, reg := x, pc := nextPc a.pc }
  | jump {a : Arch} {r : List Word} {x : Word} (h : a.stack = r ++ [x]) :
      Effect .jump a { a with stack := r, pc := x }
  | binary {i : Instr} {a : Arch} {r : List Word} {x y w : Word} (hi : i ∈ twoOperand) (h : a.stack = r ++ [y, x]) :
      Effect i a { a with stack := r ++ [w], pc := nextPc a.pc }

/-- Store with its two operands on the stack. -/
theorem execStore_append {s : State} {r : List Word} {v a : Word} (h : s.arch.stack = r ++ [v, a]) :
    exec .store s =
      .next (s.setArch { s.arch with stack := r, mem := memWrite s.arch.mem a v, pc := nextPc s.arch.pc }) := by
  have h1 : popW s.arch = .ok (a, { s.arch with stack := r ++ [v] }) := popW_append (by simp [h])
  have h2 : popW { s.arch with stack := r ++ [v] } = .ok (v, { s.arch with stack := r }) := popW_append rfl
  simp [exec, execStore, requireDepth_enough (n := 2) (a := s.arch) (by simp [h]), h1, h2, bind, Except.bind,
    pure, Except.pure, advance]

/-- The three ways an instruction's step goes: a working copy committed, an error raised, or Halt's stop. -/
def StepResult (i : Instr) (s t : State) : Prop :=
  (∃ a, t = s.setArch a ∧ Effect i s.arch a) ∨ (∃ e, t = s.setPhase (.faulted e)) ∨
  (i = .halt ∧ t = (s.setArch (advanceHalt s.cfg.haltPcDelta s.arch)).setPhase .halted)

theorem exec_binary_cases {op : Word → Word → Except ExecutionError Word} {i : Instr} {s t : State}
    (hi : i ∈ twoOperand) (h : commit (binaryStep op s.arch) s = .next t) : StepResult i s t := by
  rcases commit_cases h with ⟨a, ha, rfl⟩ | ⟨e, -, rfl⟩
  · obtain ⟨r, b, x, w, hs, -, rfl⟩ := binaryStep_cases ha
    exact .inl ⟨_, rfl, .binary hi hs⟩
  · exact .inr (.inl ⟨e, rfl⟩)

/-- Everything `exec` can do. -/
theorem exec_cases {i : Instr} {s t : State} (h : exec i s = .next t) : StepResult i s t := by
  cases i with
  | nop => cases h; exact .inl ⟨_, rfl, .nop _⟩
  | set w => cases h; exact .inl ⟨_, rfl, .set _ _⟩
  | halt => cases h; exact .inr (.inr ⟨rfl, rfl⟩)
  | read => cases h; exact .inr (.inl ⟨_, rfl⟩)
  | write => cases h; exact .inr (.inl ⟨_, rfl⟩)
  | jumpIf => cases h; exact .inr (.inl ⟨_, rfl⟩)
  | add => exact exec_binary_cases (op := checkedAdd) (by decide) h
  | sub => exact exec_binary_cases (op := checkedSub) (by decide) h
  | mul => exact exec_binary_cases (op := checkedMul) (by decide) h
  | div => exact exec_binary_cases (op := checkedDiv) (by decide) h
  | mod => exact exec_binary_cases (op := checkedMod) (by decide) h
  | cmp => exact exec_binary_cases (by decide) h
  | and => exact exec_binary_cases (by decide) h
  | or => exact exec_binary_cases (by decide) h
  | xor => exact exec_binary_cases (by decide) h
  | load =>
    rcases commit_cases h with ⟨a, ha, rfl⟩ | ⟨e, -, rfl⟩
    · obtain ⟨r, x, hs, rfl⟩ := unaryStep_cases ha
      exact .inl ⟨_, rfl, .load hs⟩
    · exact .inr (.inl ⟨e, rfl⟩)
  | not =>
    rcases commit_cases h with ⟨a, ha, rfl⟩ | ⟨e, -, rfl⟩
    · obtain ⟨r, x, hs, rfl⟩ := unaryStep_cases ha
      exact .inl ⟨_, rfl, .not hs⟩
    · exact .inr (.inl ⟨e, rfl⟩)
  | push =>
    by_cases hf : s.arch.stack.length = stackCap
    · simp [exec, execPush, pushW_full _ hf, bind, Except.bind] at h
      exact .inr (.inl ⟨_, h.symm⟩)
    · simp [exec, execPush, pushW, hf, bind, Except.bind, pure, Except.pure] at h
      exact .inl ⟨_, h.symm, .push hf⟩
  | pop =>
    rcases Nat.lt_or_ge s.arch.stack.length 1 with hl | hl
    · simp [exec, execPop, popW_empty (a := s.arch) (List.length_eq_zero_iff.mp (by omega)), bind, Except.bind] at h
      exact .inr (.inl ⟨_, h.symm⟩)
    · obtain ⟨r, x, hs⟩ := stack_one hl
      simp [exec, execPop, popW_append hs, bind, Except.bind, pure, Except.pure] at h
      exact .inl ⟨_, h.symm, .pop hs⟩
  | jump =>
    rcases Nat.lt_or_ge s.arch.stack.length 1 with hl | hl
    · simp [exec, execJump, requireDepth_short hl, bind, Except.bind] at h
      exact .inr (.inl ⟨_, h.symm⟩)
    · obtain ⟨r, x, hs⟩ := stack_one hl
      simp [exec, execJump, requireDepth_enough hl, popW_append hs, bind, Except.bind, pure, Except.pure] at h
      exact .inl ⟨_, h.symm, .jump hs⟩
  | store =>
    rcases Nat.lt_or_ge s.arch.stack.length 2 with hl | hl
    · simp [exec, execStore, requireDepth_short hl, bind, Except.bind] at h
      exact .inr (.inl ⟨_, h.symm⟩)
    · obtain ⟨r, v, x, hs⟩ := stack_two hl
      rw [execStore_append hs] at h
      cases h
      exact .inl ⟨_, rfl, .store hs⟩

/-! ### The run loop -/

/-- The observer changes nothing but the trace (R188). -/
theorem observe_cases {i : Instr} {o : Host.Outcome State Fault Refusal} {t : State} (h : observe i o = .next t) :
    ∃ u, o = .next u ∧ (t = u ∨ t = u.emit i ∧ u.mode = .observed) := by
  cases o with
  | next u =>
    refine ⟨u, rfl, ?_⟩
    simp only [observe] at h
    split at h <;> cases h
    · exact .inl rfl
    · exact .inl rfl
    · exact .inr ⟨rfl, by assumption⟩
  | fault r => cases h
  | refused r => cases h

/-- Everything a step in `RUNNING` can do (R181). -/
theorem step_running_cases {s t : State} (hr : s.phase = .running) (h : step s = .next t) :
    (fetch s = none ∧ t = s.setPhase .ended) ∨
    ∃ i u, fetch s = some i ∧ exec i s = .next u ∧ (t = u ∨ t = u.emit i ∧ u.mode = .observed) := by
  simp only [step, hr, runStep] at h
  split at h
  · cases h
    exact .inl ⟨by assumption, rfl⟩
  · obtain ⟨u, hu, ht⟩ := observe_cases h
    exact .inr ⟨_, u, by assumption, hu, ht⟩

end Sys2Proof.Machine
end

