-- ==== Sys2Proof/Laws/Params.lean ====
section
/-! SUPPORT. The configuration record: its two parts, and the agreement of its values with what the model says by a
type or by an explicit list (`00_scope.md` rule R6). A correction of one value alone makes one of these fail. -/

namespace Sys2Proof

@[simp] theorem Config.of_toOpenParams (o : OpenParams) : (Config.of o).toOpenParams = o := rfl
@[simp] theorem Config.of_toSettledParams (o : OpenParams) : (Config.of o).toSettledParams = Config.settled := rfl

/-- `WORD_BITS`. -/
theorem word_width : Word = BitVec Config.settled.wordBits := rfl

/-- `PC_BITS`. -/
theorem pc_width (a : Machine.Arch) : a.pc.toNat < 2 ^ Config.settled.pcBits := a.pc.isLt

/-- `ADDR_BITS`: a written address has this width. -/
theorem key_width {m : Machine.Memory} (h : m.wf) : ∀ k ∈ m.keys, k < 2 ^ Config.settled.addrBits := h.2.2.2

/-- `OPCODE_BITS`. -/
theorem opcode_width : Byte = BitVec Config.settled.opcodeBits := rfl

/-- `NUM_OPCODES`: the payload-free opcodes and that of `Set`. -/
theorem opcode_count : opcodeRows.length + 1 = Config.settled.numOpcodes := rfl

/-- `LITERAL_BYTES`: what the encoder writes after the opcode of `Set`. -/
theorem literal_length (w : Word) : (literalPayload w).length = Config.settled.literalBytes := rfl

/-- No two variants share an opcode byte (R72). -/
theorem opcodes_distinct : (setOpcode :: opcodeRows.map Prod.fst).Pairwise (· ≠ ·) := by decide

/-- The decoder's rows and the encoder agree on every byte. -/
theorem opcodeRows_agree : ∀ row ∈ opcodeRows, opcode row.2 = row.1 := by decide

end Sys2Proof
end

