-- ==== Sys2Proof/Laws/PerInstr.lean ====
section
/-! SUPPORT. Per-instruction facts about the syntax, one lemma per constructor: the encoded length, 9 bytes for `Set`
and 1 byte for every other variant (`30_encoding.md` rules R71 and R73). -/

namespace Sys2Proof.Laws.EncodedLength

/-- The length of an instruction's encoding is the one the opcode map gives it. -/
def Statement (i : Instr) : Prop :=
  (encode i).length = if opcode i = setOpcode then 9 else 1

theorem nop : Statement .nop := rfl
theorem halt : Statement .halt := rfl
theorem load : Statement .load := rfl
theorem store : Statement .store := rfl
theorem push : Statement .push := rfl
theorem pop : Statement .pop := rfl
theorem set (w : Word) : Statement (.set w) := rfl
theorem read : Statement .read := rfl
theorem write : Statement .write := rfl
theorem jump : Statement .jump := rfl
theorem jumpIf : Statement .jumpIf := rfl
theorem add : Statement .add := rfl
theorem sub : Statement .sub := rfl
theorem mul : Statement .mul := rfl
theorem div : Statement .div := rfl
theorem mod : Statement .mod := rfl
theorem cmp : Statement .cmp := rfl
theorem and : Statement .and := rfl
theorem or : Statement .or := rfl
theorem not : Statement .not := rfl
theorem xor : Statement .xor := rfl

end Sys2Proof.Laws.EncodedLength
end

