-- ==== Sys2Proof/Tests/Slice0.lean ====
section
/-! SUPPORT. Small checks of the model: words written out from the opcode map (R72), the bounds' refusals, one-step
vectors of `95_test_vectors.md` (the comment names the vector), and for every statement with hypotheses a named
witness that meets them together. -/

namespace Sys2Proof.Tests

open Sys2Proof Sys2Proof.Machine

/-! ### Helpers -/

/-- A State as the vectors write it: `(pc, reg, stack, mem)`, the stack bottom first. -/
def archOf (pc reg : Word) (stack : List Word) (cells : List (Nat × Word) := []) : Arch :=
  { pc := pc, reg := reg, stack := stack, mem := { cells := cells, keys := cells.map (·.1) } }

/-- A running block over a Program. -/
def running (p : Program) (a : Arch) (m : RunMode := .silent) : State :=
  { State.reset with phase := .running, program := some p, arch := a, mode := m }

/-- What a test looks at: phase, State and trace of a next state. -/
def look (o : Host.Outcome State Fault Refusal) : Option (Phase × Arch × List (Arch × Instr)) :=
  match o with
  | .next t => some (t.phase, t.arch, t.trace)
  | .fault _ => none
  | .refused _ => none

/-- One step of one instruction that succeeds. -/
def stepsTo (i : Instr) (a b : Arch) : Bool := look (exec i (running [i] a)) = some (.running, b, [])

/-- One step of one instruction that fails with the State unchanged. -/
def failsWith (i : Instr) (a : Arch) (e : ExecutionError) : Bool :=
  look (exec i (running [i] a)) = some (.faulted e, a, [])

/-- A decode, as a Program or an error. -/
def decodesTo (bytes : List Byte) (p : Program) : Bool := (decode bytes).toOption = some p

def decodeFails (bytes : List Byte) (k : DecodeErrorKind) (offset : Nat) : Bool :=
  match decode bytes with
  | .ok _ => false
  | .error e => e = { kind := k, offset := offset }

def max64 : Word := 0xFFFFFFFFFFFFFFFF

/-- A stack of n zeros. -/
def deep (n : Nat) : List Word := List.replicate n 0

theorem deep_length (n : Nat) : (deep n).length = n := List.length_replicate

/-- A running block with a given stack. -/
def withStack (stack : List Word) : State := running [.nop] { archOf 0 9 [] with stack := stack }

/-! ### The bounds refuse what exceeds them -/

theorem test_wellFormed_program_too_long :
    programFits (.of { OpenParams.default with progMaxLen := 1 }) [.nop] ∧
    ¬programFits (.of { OpenParams.default with progMaxLen := 1 }) [.nop, .nop] := by decide

theorem test_wellFormed_input_too_long :
    inputFits (.of { OpenParams.default with inputMaxBytes := some 1 }) [0x00] ∧
    ¬inputFits (.of { OpenParams.default with inputMaxBytes := some 1 }) [0x00, 0x00] := by decide

theorem test_valid_refuses_zero_cell : ¬archValid { archOf 0 0 [] with mem := { cells := [(7, 0)], keys := [7] } } := by
  decide

theorem test_valid_refuses_unsorted_cells : ¬archValid (archOf 0 0 [] [(8, 1), (7, 1)]) := by decide

theorem test_valid_refuses_65536_elements : ¬archValid { archOf 0 0 [] with stack := deep 65536 } := by
  rintro ⟨h, -⟩
  change (deep 65536).length ≤ 65535 at h
  rw [deep_length] at h
  omega

/-! ### Decoding: words written out from R72 and R74 -/

theorem test_decode_nop : decodesTo [0b00000000] [.nop] = true := by decide

theorem test_decode_halt : decodesTo [0b00000001] [.halt] = true := by decide

theorem test_decode_load : decodesTo [0b00000010] [.load] = true := by decide

theorem test_decode_store : decodesTo [0b00000011] [.store] = true := by decide

theorem test_decode_push : decodesTo [0b00000100] [.push] = true := by decide

theorem test_decode_pop : decodesTo [0b00000101] [.pop] = true := by decide

theorem test_decode_read : decodesTo [0b00000111] [.read] = true := by decide

theorem test_decode_write : decodesTo [0b00001000] [.write] = true := by decide

theorem test_decode_jump : decodesTo [0b00001001] [.jump] = true := by decide

theorem test_decode_jumpIf : decodesTo [0b00001010] [.jumpIf] = true := by decide

theorem test_decode_add : decodesTo [0b00001011] [.add] = true := by decide

theorem test_decode_sub : decodesTo [0b00001100] [.sub] = true := by decide

theorem test_decode_mul : decodesTo [0b00001101] [.mul] = true := by decide

theorem test_decode_div : decodesTo [0b00001110] [.div] = true := by decide

theorem test_decode_mod : decodesTo [0b00001111] [.mod] = true := by decide

theorem test_decode_cmp : decodesTo [0b00010000] [.cmp] = true := by decide

theorem test_decode_and : decodesTo [0b00010001] [.and] = true := by decide

theorem test_decode_or : decodesTo [0b00010010] [.or] = true := by decide

theorem test_decode_not : decodesTo [0b00010011] [.not] = true := by decide

theorem test_decode_xor : decodesTo [0b00010100] [.xor] = true := by decide

/-- S-P2. -/
theorem test_decode_set :
    decodesTo [0x06, 0x01, 0x02, 0x03, 0x04, 0x05, 0x06, 0x07, 0x08] [.set 0x0102030405060708] = true := by decide

/-- V-D4 and V-D6. -/
theorem test_decode_unrecognized :
    decodeFails [0x15] .unrecognizedOpcode 0 = true ∧ decodeFails [0x04, 0x15] .unrecognizedOpcode 1 = true := by decide

/-- V-D8 and V-D9. -/
theorem test_decode_incomplete :
    decodeFails [0x06, 0, 0, 0, 0, 0, 0, 0] .incompleteLiteral 0 = true ∧
    decodeFails [0x00, 0x06, 0, 0] .incompleteLiteral 1 = true := by decide

/-- V-D10 and V-D11. -/
theorem test_decode_literal_bytes_are_no_opcodes :
    decodesTo [0x06, 0x15, 0x15, 0x15, 0x15, 0x15, 0x15, 0x15, 0x15, 0x01] [.set 0x1515151515151515, .halt] = true ∧
    decodeFails [0x06, 0, 0, 0, 0, 0, 0, 0, 0x06, 0x06] .incompleteLiteral 9 = true := by decide

/-- V-D14 and V-D1. -/
theorem test_decode_first_failure_only :
    decodeFails [0x15, 0x06] .unrecognizedOpcode 0 = true ∧ decodesTo [] [] = true := by decide

/-- V-D15 and V-D16. -/
theorem test_decodeOne_unreachable_kinds :
    decodeOne [] = .error .noInput ∧ decodeOne [0x00, 0x00] = .error .unexpectedPayload := ⟨rfl, rfl⟩

theorem test_decodeTableWord :
    decodeTableWord 8 0x09 = some .jump ∧ decodeTableWord 8 0x06 = some (.set 0) ∧
    decodeTableWord 72 0x080706050403020106 = some (.set 0x0102030405060708) ∧ decodeTableWord 8 0xFF = none := by decide

/-- The first instruction after reset is the one placed. -/
theorem test_withFetchWord_runs_first :
    look (step (State.reset.withFetchWord 8 0x04)) = some (.running, archOf 1 0 [0], []) := by decide

theorem test_encode_set_and_xor :
    encode (.set 0x0102030405060708) = [0x06, 0x01, 0x02, 0x03, 0x04, 0x05, 0x06, 0x07, 0x08] ∧
    encode .xor = [0x14] := by decide

/-! ### One step, from the vectors -/

/-- V-C2. -/
theorem test_nop : stepsTo .nop (archOf 4 9 [1, 2] [(3, 4)]) (archOf 5 9 [1, 2] [(3, 4)]) = true := by decide

/-- V-C3. -/
theorem test_halt : look (exec .halt (running [.halt] (archOf 5 3 [8]))) = some (.halted, archOf 5 3 [8], []) := by decide

/-- V-C3 with `HALT_PC_DELTA = 1`. -/
theorem test_halt_delta_one :
    look (exec .halt { running [.halt] (archOf 5 3 [8]) with cfg := { OpenParams.default with haltPcDelta := 1 } }) =
      some (.halted, archOf 6 3 [8], []) := by decide

/-- V-C4 and V-C7. -/
theorem test_jump :
    stepsTo .jump (archOf 2 0 [7, 0]) (archOf 0 0 [7]) = true ∧
    stepsTo .jump (archOf 0 9 [max64]) (archOf max64 9 []) = true := by decide

/-- V-C6. -/
theorem test_jump_empty : failsWith .jump (archOf 2 0 []) .insufficientArguments = true := by decide

/-- V-M1 and V-M3. -/
theorem test_load :
    stepsTo .load (archOf 3 0 [7] [(7, 42)]) (archOf 4 0 [42] [(7, 42)]) = true ∧
    stepsTo .load (archOf 0 0 [max64] [(2 ^ 64 - 1, 5)]) (archOf 1 0 [5] [(2 ^ 64 - 1, 5)]) = true := by decide

/-- V-M2 and V-M4. -/
theorem test_load_unwritten_and_empty :
    stepsTo .load (archOf 0 0 [123456]) (archOf 1 0 [0]) = true ∧
    failsWith .load (archOf 0 0 []) .insufficientArguments = true := by decide

/-- V-M6 and V-M9. -/
theorem test_store :
    stepsTo .store (archOf 4 0 [42, 7]) (archOf 5 0 [] [(7, 42)]) = true ∧
    stepsTo .store (archOf 0 0 [1, 2, 3]) (archOf 1 0 [1] [(3, 2)]) = true := by decide

/-- V-M8 (a stored 0 leaves a key and no cell) and V-M10. -/
theorem test_store_zero_and_short :
    stepsTo .store (archOf 0 0 [0, 7] [(7, 42)])
      { archOf 1 0 [] with mem := { cells := [], keys := [7] } } = true ∧
    failsWith .store (archOf 0 0 [1]) .insufficientArguments = true := by decide

/-- V-R2. -/
theorem test_push : stepsTo .push (archOf 1 5 [2]) (archOf 2 5 [2, 5]) = true := by decide

/-- V-R3. -/
theorem test_push_full :
    exec .push (withStack (deep 65535)) = .next { withStack (deep 65535) with phase := .faulted .stackFull } := by
  have h : pushW 9 (withStack (deep 65535)).arch = .error .stackFull := pushW_full 9 (deep_length 65535)
  have fails (s : State) : commit (.error .stackFull) s = .next { s with phase := .faulted .stackFull } := rfl
  have run : exec .push (withStack (deep 65535)) =
      commit (pushW 9 (withStack (deep 65535)).arch >>= fun a => pure (advance a)) (withStack (deep 65535)) := rfl
  rw [run, h]
  exact fails _

/-- V-R5. -/
theorem test_pop : stepsTo .pop (archOf 3 9 [4, 8]) (archOf 4 8 [4]) = true := by decide

/-- V-R6. -/
theorem test_pop_empty : failsWith .pop (archOf 0 0 []) .stackEmpty = true := by decide

/-- V-R9. -/
theorem test_set : stepsTo (.set max64) (archOf 2 1 [3]) (archOf 3 max64 [3]) = true := by decide

/-- V-I1. -/
theorem test_read : failsWith .read (archOf 2 1 [3]) .illegalInstruction = true := by decide

/-- V-I2. -/
theorem test_write : failsWith .write (archOf 0 0 []) .illegalInstruction = true := by decide

/-- V-I3 and V-I4. -/
theorem test_jumpIf :
    failsWith .jumpIf (archOf 6 0 [1, 9]) .illegalInstruction = true ∧
    failsWith .jumpIf (archOf 0 0 []) .illegalInstruction = true := by decide

/-- V-A1, V-A3 and V-A6. -/
theorem test_add :
    stepsTo .add (archOf 0 9 [5, 3]) (archOf 1 9 [8]) = true ∧
    stepsTo .add (archOf 0 9 [max64, 0]) (archOf 1 9 [max64]) = true ∧
    stepsTo .add (archOf 0 9 [0x8000000000000000, 0x7FFFFFFFFFFFFFFF]) (archOf 1 9 [max64]) = true := by decide

/-- V-A4, V-A5 and V-X1. -/
theorem test_add_fails :
    failsWith .add (archOf 0 9 [max64, 1]) .arithmeticOverflow = true ∧
    failsWith .add (archOf 0 9 [0x8000000000000000, 0x8000000000000000]) .arithmeticOverflow = true ∧
    failsWith .add (archOf 0 9 [max64]) .insufficientArguments = true := by decide

/-- V-A7 and V-A11. -/
theorem test_sub :
    stepsTo .sub (archOf 0 9 [3, 5]) (archOf 1 9 [2]) = true ∧
    stepsTo .sub (archOf 0 9 [max64, max64]) (archOf 1 9 [0]) = true := by decide

/-- V-A8 and V-A10. -/
theorem test_sub_fails :
    failsWith .sub (archOf 0 9 [5, 3]) .arithmeticOverflow = true ∧
    failsWith .sub (archOf 0 9 [1, 0]) .arithmeticOverflow = true := by decide

/-- V-A12, V-A13 and V-A15. -/
theorem test_mul :
    stepsTo .mul (archOf 0 9 [6, 7]) (archOf 1 9 [42]) = true ∧
    stepsTo .mul (archOf 0 9 [max64, 0]) (archOf 1 9 [0]) = true ∧
    stepsTo .mul (archOf 0 9 [0xFFFFFFFF, 0x100000000]) (archOf 1 9 [18446744069414584320]) = true := by decide

/-- V-A14 and V-A16. -/
theorem test_mul_fails :
    failsWith .mul (archOf 0 9 [0x100000000, 0x100000000]) .arithmeticOverflow = true ∧
    failsWith .mul (archOf 0 9 [max64, 2]) .arithmeticOverflow = true := by decide

/-- V-A17, V-A18 and V-A21. -/
theorem test_div :
    stepsTo .div (archOf 0 9 [2, 10]) (archOf 1 9 [5]) = true ∧
    stepsTo .div (archOf 0 9 [10, 2]) (archOf 1 9 [0]) = true ∧
    stepsTo .div (archOf 0 9 [3, max64]) (archOf 1 9 [6148914691236517205]) = true := by decide

/-- V-A19, V-A20 and V-X2. -/
theorem test_div_fails :
    failsWith .div (archOf 0 9 [0, 7]) .arithmeticOverflow = true ∧
    failsWith .div (archOf 0 9 [0, 0]) .arithmeticOverflow = true ∧
    failsWith .div (archOf 0 9 [0]) .insufficientArguments = true := by decide

/-- V-A23, V-A25 and V-A26. -/
theorem test_mod :
    stepsTo .mod (archOf 0 9 [3, 10]) (archOf 1 9 [1]) = true ∧
    stepsTo .mod (archOf 0 9 [5, 3]) (archOf 1 9 [3]) = true ∧
    stepsTo .mod (archOf 0 9 [7, max64]) (archOf 1 9 [1]) = true := by decide

/-- V-A24, V-A28 and V-X6. -/
theorem test_mod_fails :
    failsWith .mod (archOf 0 9 [0, 5]) .arithmeticOverflow = true ∧
    failsWith .mod (archOf 0 9 [0, 0]) .arithmeticOverflow = true ∧
    failsWith .mod (archOf 0 9 [1]) .insufficientArguments = true := by decide

/-- V-L1, V-L2 and V-L4. -/
theorem test_cmp :
    stepsTo .cmp (archOf 0 9 [3, 3]) (archOf 1 9 [1]) = true ∧
    stepsTo .cmp (archOf 0 9 [3, 4]) (archOf 1 9 [0]) = true ∧
    stepsTo .cmp (archOf 0 9 [0x8000000000000000, 0]) (archOf 1 9 [0]) = true := by decide

/-- V-X4. -/
theorem test_cmp_fails :
    failsWith .cmp (archOf 0 9 [1]) .insufficientArguments = true := by decide

/-- V-L6 and V-L7. -/
theorem test_and :
    stepsTo .and (archOf 0 9 [0xFF00, 0x0FF0]) (archOf 1 9 [0x0F00]) = true ∧
    stepsTo .and (archOf 0 9 [max64, 0x1234]) (archOf 1 9 [0x1234]) = true := by decide

/-- R161. -/
theorem test_and_fails :
    failsWith .and (archOf 0 9 [1]) .insufficientArguments = true := by decide

/-- V-L9 and V-L10. -/
theorem test_or :
    stepsTo .or (archOf 0 9 [0xFF00, 0x0FF0]) (archOf 1 9 [0xFFF0]) = true ∧
    stepsTo .or (archOf 0 9 [0x8000000000000000, 1]) (archOf 1 9 [0x8000000000000001]) = true := by decide

/-- R162. -/
theorem test_or_fails :
    failsWith .or (archOf 0 9 [1]) .insufficientArguments = true := by decide

/-- V-L11, V-L13 and V-L14. -/
theorem test_not :
    stepsTo .not (archOf 0 9 [0]) (archOf 1 9 [max64]) = true ∧
    stepsTo .not (archOf 0 9 [5, 0x00000000FFFFFFFF]) (archOf 1 9 [5, 0xFFFFFFFF00000000]) = true ∧
    stepsTo .not (archOf 0 9 [1]) (archOf 1 9 [0xFFFFFFFFFFFFFFFE]) = true := by decide

/-- V-X3. -/
theorem test_not_fails :
    failsWith .not (archOf 0 9 []) .insufficientArguments = true := by decide

/-- V-L15 and V-L16. -/
theorem test_xor :
    stepsTo .xor (archOf 0 9 [0xFF00, 0x0FF0]) (archOf 1 9 [0xF0F0]) = true ∧
    stepsTo .xor (archOf 0 9 [max64, 0x1234]) (archOf 1 9 [0xFFFFFFFFFFFFEDCB]) = true := by decide

/-- V-X5. -/
theorem test_xor_fails :
    failsWith .xor (archOf 0 9 []) .insufficientArguments = true := by decide

/-! ### One step of the run loop -/

/-- V-E2: past the last instruction the run ends. -/
theorem test_step_ends : look (step (running [.nop] (archOf 1 0 []))) = some (.ended, archOf 1 0 [], []) := by decide

/-- V-E9: a Halt is reported to the observer. -/
theorem test_step_observes_halt :
    look (step (running [.set 1, .halt] (archOf 1 1 []) .observed)) =
      some (.halted, archOf 1 1 [], [(archOf 1 1 [], .halt)]) := by decide

/-- V-E10: a failed step is not. -/
theorem test_step_does_not_observe_failure :
    look (step (running [.set 1, .push, .pop, .pop] (archOf 3 1 []) .observed)) =
      some (.faulted .stackEmpty, archOf 3 1 [], []) := by decide

/-- S-E: a decode failure leaves no Program. -/
theorem test_step_decode_fails :
    look (step { State.reset with phase := .decoding [0x06, 0, 0, 0, 0] }) =
      some (.decodeFailed { kind := .incompleteLiteral, offset := 0 }, archOf 0 0 [], []) := by decide

/-! ### Witnesses: one state and operands per clause, meeting the statement's hypotheses together

The stack bound is met with equality where a clause has one (`deep n` is a stack of n zeros). -/

theorem witness_pc_boundary : (archOf (max64 - 1) 0 []).pc.toNat < 2 ^ 64 - 1 := by decide

theorem witness_HaltAddsDeltaAndStops :
    State.reset.cfg.haltPcDelta = 0 ∧
    ∃ s : State, s.cfg.haltPcDelta = 1 ∧ s.arch.pc.toNat < 2 ^ 64 - 1 :=
  ⟨rfl, { running [.halt] (archOf (max64 - 1) 0 []) with cfg := { OpenParams.default with haltPcDelta := 1 } }, by decide⟩

theorem witness_empty_stack : (withStack []).arch.stack = [] ∧ (withStack []).arch.stack.length < 2 := by decide

/-- For the two-operand statements and Store: too short at depth 1. -/
theorem witness_short_stack : (withStack [max64]).arch.stack.length < 2 ∧ (withStack [max64]).arch.stack.length ≤ 65535 := by
  decide

/-- For Load, Jump, Pop and Not: one operand at depth 65535. -/
theorem witness_one_operand (a : Word) :
    (withStack (deep 65534 ++ [a])).arch.stack = deep 65534 ++ [a] ∧
    (withStack (deep 65534 ++ [a])).arch.stack.length ≤ 65535 ∧ (withStack (deep 65534 ++ [a])).arch.pc.toNat < 2 ^ 64 - 1 := by
  refine ⟨rfl, ?_, by show (0 : Word).toNat < _; decide⟩
  show (deep 65534 ++ [a]).length ≤ 65535
  rw [List.length_append, deep_length, List.length_singleton]

/-- For the two-operand instructions: two operands at depth 65535. -/
theorem witness_two_operands (b a : Word) :
    (withStack (deep 65533 ++ [b, a])).arch.stack = deep 65533 ++ [b, a] ∧
    (withStack (deep 65533 ++ [b, a])).arch.stack.length ≤ 65535 ∧
    (withStack (deep 65533 ++ [b, a])).arch.pc.toNat < 2 ^ 64 - 1 := by
  refine ⟨rfl, ?_, by show (0 : Word).toNat < _; decide⟩
  show (deep 65533 ++ [b, a]).length ≤ 65535
  rw [List.length_append, deep_length, List.length_cons, List.length_singleton]

theorem witness_PushCopiesRegister :
    (withStack (deep 65535)).arch.stack.length = 65535 ∧ (withStack (deep 65534)).arch.stack.length < 65535 :=
  ⟨deep_length 65535, by show (deep 65534).length < 65535; rw [deep_length]; omega⟩

theorem witness_StoreWritesValueAtAddress :
    (withStack [0, max64]).arch.stack = [] ++ [0, max64] ∧ (withStack [0, max64]).arch.mem.wf ∧
    (withStack [0, max64]).arch.pc.toNat < 2 ^ 64 - 1 := by decide

theorem witness_UnwrittenAddressReadsZero :
    (archOf 0 0 [] [(7, 42)]).mem.wf ∧ ¬hasKey (archOf 0 0 [] [(7, 42)]).mem max64 := by decide

theorem witness_LoadAfterStoreSeesLatestValue :
    ∃ s : State, s.arch.stack = [1] ++ [5, 9, 5] ∧ s.arch.stack.length ≤ 65535 ∧ s.arch.mem.wf :=
  ⟨running [.store, .load] (archOf 0 0 [1, 5, 9, 5] [(7, 1)]), by decide⟩

/-- Add, Sub, Mul: the last operands that succeed and the first that fail. -/
theorem witness_overflow_boundaries :
    (1 : Word).toNat + (max64 - 1).toNat < 2 ^ 64 ∧ 2 ^ 64 ≤ (1 : Word).toNat + max64.toNat ∧
    (5 : Word).toNat ≤ (5 : Word).toNat ∧ (4 : Word).toNat < (5 : Word).toNat ∧
    (0xFFFFFFFF : Word).toNat * (0x100000000 : Word).toNat < 2 ^ 64 ∧
    2 ^ 64 ≤ (0x100000000 : Word).toNat * (0x100000000 : Word).toNat := by decide

/-- Div, Mod, Cmp: both clauses. -/
theorem witness_divisor_and_equality :
    (1 : Word).toNat ≠ 0 ∧ (0 : Word).toNat = 0 ∧ max64 = max64 ∧ (0 : Word) ≠ 0x8000000000000000 := by decide

/-- ErrorTableIsExact, FailedStepChangesNothing: each kind of error, and none. -/
theorem witness_errorTable :
    (withStack [1]).phase = .running ∧ (withStack [1]).arch.stack.length ≤ 65535 ∧
    errorTable .add (withStack [1]).arch = some .insufficientArguments ∧
    errorTable .pop (withStack []).arch = some .stackEmpty ∧
    errorTable .mod (withStack [0, 1]).arch = some .arithmeticOverflow ∧
    errorTable .jumpIf (withStack []).arch = some .illegalInstruction ∧
    errorTable .mod (withStack [1, 1]).arch = none := by decide

theorem witness_errorTable_full : errorTable .push (withStack (deep 65535)).arch = some .stackFull := by
  have table (x : Arch) (h : x.stack.length = 65535) : errorTable .push x = some .stackFull := if_pos h
  exact table _ (deep_length 65535)

theorem witness_FailedStepChangesNothing :
    (withStack []).phase = .running ∧
    ∃ t, exec .pop (withStack []) = .next t ∧ t.phase = .faulted .stackEmpty :=
  ⟨rfl, _, rfl, rfl⟩

/-- The statements about a successful step: a Jump, a Halt, an Add and an empty fetch from running States. -/
theorem witness_PcEffectOfEveryOpcode :
    (withStack [3, 5]).phase = .running ∧ (withStack [3, 5]).arch.pc.toNat < 2 ^ 64 - 1 ∧
    (∃ t, exec .jump (withStack [3, 5]) = .next t ∧ ∀ e, t.phase ≠ .faulted e) ∧
    (∃ t, exec .halt (withStack [3, 5]) = .next t ∧ ∀ e, t.phase ≠ .faulted e) ∧
    (∃ t, exec .add (withStack [3, 5]) = .next t ∧ ∀ e, t.phase ≠ .faulted e) ∧
    (∃ t, step (withStack [3, 5]) = .next t ∧ fetch (withStack [3, 5]) = some .nop) ∧
    (∃ t, step (running [] (archOf 0 0 [])) = .next t ∧ fetch (running [] (archOf 0 0 [])) = none) :=
  ⟨rfl, by decide, ⟨_, rfl, fun _ h => nomatch h⟩, ⟨_, rfl, fun _ h => nomatch h⟩, ⟨_, rfl, fun _ h => nomatch h⟩,
    ⟨_, rfl, rfl⟩, ⟨_, rfl, rfl⟩⟩

theorem witness_StackBeneathOperandsIsUntouched :
    ∃ t, exec .store (withStack [1, 2, 3]) = .next t ∧ t.arch.stack = [1] := ⟨_, rfl, rfl⟩

theorem witness_RegisterReadByPushWrittenByPopAndSet :
    Instr.add ≠ .push ∧ Instr.add ≠ .pop ∧ (∀ w, Instr.add ≠ .set w) ∧ ∃ t, exec .add (withStack [3, 5]) = .next t :=
  ⟨by decide, by decide, fun _ => nofun, _, rfl⟩

theorem witness_OnlyStoreChangesMemory : Instr.load ≠ .store ∧ ∃ t, exec .load (withStack [3]) = .next t :=
  ⟨by decide, _, rfl⟩

theorem witness_StoreFrameOutsideItsAddress :
    (withStack [3, 5]).arch.mem.wf ∧ (∃ t, exec .store (withStack [3, 5]) = .next t) ∧
    (∃ x, popW (withStack [3, 5]).arch = .ok (5, x)) ∧ (6 : Word) ≠ 5 :=
  ⟨by decide, ⟨_, rfl⟩, ⟨_, rfl⟩, by decide⟩

theorem witness_KeysNeverShrink :
    ∃ s t : State, step s = .next t ∧ hasKey s.arch.mem 7 :=
  ⟨running [.store] (archOf 0 0 [0, 7] [(7, 42)]), _, rfl, by decide⟩

/-- Two different blocks with one State (the phases, Programs and modes differ). -/
theorem witness_InstructionsDependOnTheStateAlone :
    ∃ s s' : State, s'.arch = s.arch ∧ s'.cfg.haltPcDelta = s.cfg.haltPcDelta ∧ s ≠ s' :=
  ⟨State.reset, running [.nop] (archOf 0 0 []) .observed, by decide⟩

theorem witness_StepRunsTheInstructionAtPc :
    (∃ s : State, s.phase = .running ∧ s.program = some [.nop, .pop] ∧ [Instr.nop, .pop][s.arch.pc.toNat]? = some .pop ∧
      s.mode = .silent) ∧
    (∃ s t : State, s.phase = .running ∧ s.program = some [.nop, .pop] ∧
      [Instr.nop, .pop][s.arch.pc.toNat]? = some .pop ∧ s.mode = .observed ∧ exec .pop s = .next t ∧
      ∃ e, t.phase = .faulted e) ∧
    (∃ s t : State, s.phase = .running ∧ s.program = some [.nop, .pop] ∧
      [Instr.nop, .pop][s.arch.pc.toNat]? = some .pop ∧ s.mode = .observed ∧ exec .pop s = .next t ∧
      ∀ e, t.phase ≠ .faulted e) :=
  ⟨⟨running [.nop, .pop] (archOf 1 0 [4]), by decide⟩,
    ⟨running [.nop, .pop] (archOf 1 0 []) .observed, _, rfl, rfl, rfl, rfl, rfl, _, rfl⟩,
    ⟨running [.nop, .pop] (archOf 1 0 [4]) .observed, _, rfl, rfl, rfl, rfl, rfl, fun _ h => nomatch h⟩⟩

/-- At the last position, at len, and past it. -/
theorem witness_RunEndsExactlyAtOrPastLen :
    (running [.nop] (archOf 0 0 [])).arch.pc.toNat < [Instr.nop].length ∧
    [Instr.nop].length ≤ (running [.nop] (archOf 1 0 [])).arch.pc.toNat ∧
    [Instr.nop].length ≤ (running [.nop] (archOf max64 0 [])).arch.pc.toNat ∧
    ∃ t, step (running [.nop] (archOf 0 0 [])) = .next t :=
  ⟨by decide, by decide, by decide, _, rfl⟩

theorem witness_HaltStopsTheRun :
    ∃ s : State, s.phase = .running ∧ s.program = some [.nop, .halt] ∧
      [Instr.nop, .halt][s.arch.pc.toNat]? = some .halt :=
  ⟨running [.nop, .halt] (archOf 1 0 []), by decide⟩

theorem witness_ErrorStopsTheRunWithTheLastGoodState :
    ∃ s : State, s.phase = .running ∧ s.program = some [.sub] ∧ [Instr.sub][s.arch.pc.toNat]? = some .sub ∧
      s.arch.stack.length ≤ 65535 ∧ errorTable .sub s.arch = some .arithmeticOverflow :=
  ⟨running [.sub] (archOf 0 3 [5, 3]), by decide⟩

theorem witness_ObserverInfluencesNothing : ∃ t, step (running [.nop] (archOf 0 0 [])) = .next t := ⟨_, rfl⟩

/-- Each terminal phase is one a state can have, and reset is an action it takes. -/
theorem witness_TerminalPhasesAreLeftByResetOnly :
    ∃ s t : State, (s.phase = .halted ∨ s.phase = .ended ∨ (∃ e, s.phase = .faulted e) ∨ ∃ e, s.phase = .decodeFailed e) ∧
      hostAct .reset s = .next t :=
  ⟨{ State.reset with phase := .ended }, _, .inr (.inl rfl), rfl⟩

/-- A running block that meets the invariant, and its step. -/
theorem witness_invariant : Inv (running [.push] (archOf 0 5 [2] [(7, 42)])) :=
  { valid := by decide
    fits := fun p h => by cases h; decide
    held := rfl
    untouched := nofun
    quiet := fun _ => rfl
    emitted := nofun
    past := nofun }

/-- PcStaysBelowTopInARun, ProgramIsImmutableInARun, StepKeepsInvariant. -/
theorem witness_running_step :
    ∃ s t : State, Inv s ∧ s.phase = .running ∧ fetch s = some .push ∧ step s = .next t ∧ t.phase = .running ∧
      Instr.push ≠ .jump ∧ Instr.push ≠ .halt :=
  ⟨running [.push] (archOf 0 5 [2] [(7, 42)]), _, witness_invariant, rfl, rfl, rfl, rfl, nofun, nofun⟩

theorem witness_HostActionsKeepInvariant :
    ∃ s t : State, Inv s ∧ hostAct .reset s = .next t := ⟨_, _, witness_invariant, rfl⟩

theorem witness_NothingHappensUntilTheHostActs :
    State.reset.phase = .idle ∧ { State.reset with phase := .ready }.phase = Phase.ready := ⟨rfl, rfl⟩

/-- A decode that fails, one that fits exactly, and one that is one instruction too long. -/
theorem witness_DecodingIsAllOrNothing :
    (∃ s : State, s.phase = .decoding [0x15] ∧ ∃ e, decode [0x15] = .error e) ∧
    (∃ s : State, s.phase = .decoding [0x00] ∧ decode [0x00] = .ok [.nop] ∧
      [Instr.nop].length ≤ s.cfg.progMaxLen.toNat) ∧
    (∃ s : State, s.phase = .decoding [0x00] ∧ decode [0x00] = .ok [.nop] ∧
      s.cfg.progMaxLen.toNat < [Instr.nop].length) :=
  ⟨⟨{ State.reset with phase := .decoding [0x15] }, rfl, _, rfl⟩,
    ⟨{ State.reset with phase := .decoding [0x00], cfg := { OpenParams.default with progMaxLen := 1 } }, rfl, rfl, by decide⟩,
    ⟨{ State.reset with phase := .decoding [0x00], cfg := { OpenParams.default with progMaxLen := 0 } }, rfl, rfl, by decide⟩⟩

theorem witness_HostIsShutOutOfDecodingAndRunning :
    (∃ s : State, ∃ bytes, s.phase = .decoding bytes) ∧ (withStack []).phase = .running :=
  ⟨⟨{ State.reset with phase := .decoding [] }, [], rfl⟩, rfl⟩

/-- A valid launch State of depth 65535 and an invalid one of depth 65536. -/
theorem witness_LaunchStateIsAnyValidState :
    { State.reset with phase := .ready }.phase = Phase.ready ∧
    { archOf 9 0 [] with stack := deep 65535 }.stack.length ≤ 65535 ∧
    { archOf 9 0 [] with stack := deep 65535 }.mem.wf ∧
    65535 < { archOf 9 0 [] with stack := deep 65536 }.stack.length :=
  ⟨rfl, by rw [deep_length], by decide, by rw [deep_length]; omega⟩

theorem witness_SetupLeadsFromResetToTheRun :
    inputFits (.of OpenParams.default) [0x04] ∧ decode [0x04] = .ok [.push] ∧ programFits (.of OpenParams.default) [.push] :=
  ⟨by decide, rfl, by decide⟩

/-- DecodeOneCaseByCase, UnrecognizedByteFailsAtItsOffset, IncompleteLiteralFailsAtItsOpcode: the boundary bytes. -/
theorem witness_decode_clauses :
    0x14 < (0x15 : Byte).toNat ∧ (0x14 : Byte).toNat ≤ 0x14 ∧ (0x14 : Byte) ≠ 0x06 ∧ [(0x00 : Byte)] ≠ [] ∧
    [(0 : Byte), 0, 0, 0, 0, 0, 0].length < 8 ∧ [(0 : Byte), 0, 0, 0, 0, 0, 0, 0].length = 8 := by decide

/-- EncodeOfDecodeIsTheInput, DecodedLengthLaw, OnlyTwoDecodeFailuresOccur. -/
theorem witness_decode_results :
    (∃ p, decode [0x06, 0, 0, 0, 0, 0, 0, 0, 5, 0x04] = .ok p) ∧ ∃ e, decode [0x06, 0] = .error e :=
  ⟨⟨_, rfl⟩, _, rfl⟩

theorem witness_ReachableStatesAreValid : Reachable { State.reset with cfg := OpenParams.default } := .reset _

end Sys2Proof.Tests
end

section
/-! What a successful instruction does to each part of the spec's State: one lemma per part over the model's `Effect`,
from which the frames and the invariant follow. -/

namespace Sys2Proof.Machine

/-- An opcode other than Jump leaves pc one position on (R22). -/
theorem Effect.pc_eq {i : Instr} {a b : Arch} (h : Effect i a b) (hj : i ≠ .jump) : b.pc = nextPc a.pc := by
  cases h with
  | jump => exact absurd rfl hj
  | _ => rfl

theorem Effect.jump_target {a b : Arch} (h : Effect .jump a b) : a.stack.getLast? = some b.pc := by
  cases h with
  | jump hs => simp [hs]
  | binary hi => exact absurd hi (by decide)

theorem Effect.reg_eq {i : Instr} {a b : Arch} (h : Effect i a b) (hp : i ≠ .pop) (hs : ∀ w, i ≠ .set w) :
    b.reg = a.reg := by
  cases h with
  | pop => exact absurd rfl hp
  | set w => exact absurd rfl (hs w)
  | _ => rfl

/-- The last column of R29's table. -/
def depthChange : Instr → Int
  | .nop | .halt | .load | .set _ | .not | .read | .write | .jumpIf => 0
  | .push => 1
  | .pop | .jump | .add | .sub | .mul | .div | .mod | .cmp | .and | .or | .xor => -1
  | .store => -2

/-- How many elements an instruction pops (R29). -/
def popCount : Instr → Nat
  | .nop | .halt | .set _ | .push | .read | .write | .jumpIf => 0
  | .load | .pop | .jump | .not => 1
  | .store | .add | .sub | .mul | .div | .mod | .cmp | .and | .or | .xor => 2

theorem depthChange_of_twoOperand {i : Instr} (hi : i ∈ twoOperand) : depthChange i = -1 :=
  (by decide : ∀ j ∈ twoOperand, depthChange j = -1) i hi

theorem popCount_of_twoOperand {i : Instr} (hi : i ∈ twoOperand) : popCount i = 2 :=
  (by decide : ∀ j ∈ twoOperand, popCount j = 2) i hi

theorem Effect.depth_diff {i : Instr} {a b : Arch} (h : Effect i a b) :
    (b.stack.length : Int) - a.stack.length = depthChange i := by
  cases h with
  | nop | set | push => simp [depthChange]
  | load hs | not hs | pop hs | jump hs | store hs => simp [hs, depthChange]
  | binary hi hs =>
    rw [depthChange_of_twoOperand hi]
    simp [hs]

theorem Effect.beneath {i : Instr} {a b : Arch} (h : Effect i a b) :
    a.stack.take (a.stack.length - popCount i) <+: b.stack := by
  cases h with
  | nop | set | push => simp [popCount]
  | load hs | not hs | pop hs | jump hs | store hs => simp [hs, popCount]
  | binary hi hs =>
    rw [popCount_of_twoOperand hi]
    simp [hs]

/-- Only Push deepens the stack, and it stops at the capacity (R26). -/
theorem Effect.stack_le {i : Instr} {a b : Arch} (h : Effect i a b) (ha : a.stack.length ≤ stackCap) :
    b.stack.length ≤ stackCap := by
  cases h with
  | nop | set => exact ha
  | push hf =>
    rw [List.length_append, List.length_singleton]
    omega
  | load hs | not hs | pop hs | jump hs | store hs | binary _ hs =>
    simp [hs] at ha ⊢
    omega

/-- No instruction removes a key (R31). -/
theorem Effect.hasKey_of_hasKey {i : Instr} {a b : Arch} (h : Effect i a b) {k : Word} (hk : hasKey a.mem k) :
    hasKey b.mem k := by
  cases h with
  | store => exact (hasKey_memWrite _ _ _ _).mpr (.inr hk)
  | _ => exact hk

theorem Effect.mem_wf {i : Instr} {a b : Arch} (h : Effect i a b) (hm : a.mem.wf) : b.mem.wf := by
  cases h with
  | store => exact memWrite_wf hm _ _
  | _ => exact hm

/-- A valid State stays valid (R39). -/
theorem Effect.valid {i : Instr} {a b : Arch} (h : Effect i a b) (ha : archValid a) : archValid b :=
  ⟨h.stack_le ha.1, h.mem_wf ha.2⟩

/-! ### One instruction over the whole block -/

/-- The working copy a successful instruction other than Halt commits; an error would have changed the phase. -/
theorem exec_effect {i : Instr} {s t : State} (hx : exec i s = .next t) (hf : ∀ e, t.phase ≠ .faulted e)
    (hi : i ≠ .halt) : Effect i s.arch t.arch := by
  rcases exec_cases hx with ⟨a, rfl, ha⟩ | ⟨e, rfl⟩ | ⟨rfl, -⟩
  · exact ha
  · exact absurd rfl (hf e)
  · exact absurd rfl hi

/-- A Halt commits its advance of pc (R101). -/
theorem exec_halt_arch {s t : State} (hx : exec .halt s = .next t) : t.arch = advanceHalt s.cfg.haltPcDelta s.arch := by
  cases hx
  rfl

/-- A failed step leaves the State as it was (R207). -/
theorem exec_faulted_arch {i : Instr} {s t : State} {e : ExecutionError} (hr : s.phase = .running)
    (hx : exec i s = .next t) (ht : t.phase = .faulted e) : t.arch = s.arch := by
  rcases exec_cases hx with ⟨a, rfl, -⟩ | ⟨e, rfl⟩ | ⟨-, rfl⟩
  · simp [hr] at ht
  · rfl
  · simp at ht

/-- One instruction leaves a running block in a phase of the run or in a terminal one. -/
theorem exec_phase_past_ready {i : Instr} {s t : State} (hr : s.phase = .running) (h : exec i s = .next t) :
    t.phase.beforeReady = false ∧ t.phase ≠ .ready := by
  rcases exec_cases h with ⟨a, rfl, -⟩ | ⟨e, rfl⟩ | ⟨-, rfl⟩ <;> simp [hr, Phase.beforeReady]

/-- `Effect.hasKey_of_hasKey` over the whole block (R31). -/
theorem exec_hasKey_of_hasKey {i : Instr} {s t : State} (h : exec i s = .next t) {k : Word} (hk : hasKey s.arch.mem k) :
    hasKey t.arch.mem k := by
  rcases exec_cases h with ⟨a, rfl, ha⟩ | ⟨e, rfl⟩ | ⟨-, rfl⟩
  · exact ha.hasKey_of_hasKey hk
  · exact hk
  · simpa using hk

/-! ### pc as a number -/

/-- The advance is exact as a number below the top (R23). -/
theorem nextPc_toNat {pc : Word} (h : pc.toNat < 2 ^ 64 - 1) : (nextPc pc).toNat = pc.toNat + 1 := by
  rw [nextPc_of_lt h, BitVec.toNat_add_of_lt (by simp; omega)]
  rfl

/-- Halt's advance as a number, for both values of `HALT_PC_DELTA` (R101). -/
theorem advanceHalt_pc_toNat {a : Arch} (h : a.pc.toNat < 2 ^ 64 - 1) (d : Fin 2) :
    (advanceHalt d a).pc.toNat = a.pc.toNat + d.val := by
  rw [advanceHalt_pc]
  match d with
  | 0 => rfl
  | 1 => exact nextPc_toNat h

/-! ### Another value in the register -/

/-- The State with another value in the register. -/
def Arch.withReg (a : Arch) (w : Word) : Arch := { a with reg := w }

/-- The block with another value in the register. -/
def State.withReg (s : State) (w : Word) : State := s.setArch (s.arch.withReg w)

@[simp] theorem Arch.withReg_pc (a : Arch) (w : Word) : (a.withReg w).pc = a.pc := rfl
@[simp] theorem Arch.withReg_reg (a : Arch) (w : Word) : (a.withReg w).reg = w := rfl
@[simp] theorem Arch.withReg_stack (a : Arch) (w : Word) : (a.withReg w).stack = a.stack := rfl
@[simp] theorem Arch.withReg_mem (a : Arch) (w : Word) : (a.withReg w).mem = a.mem := rfl
@[simp] theorem Arch.withReg_mk (p r w : Word) (l : List Word) (m : Memory) :
    (Arch.mk p r l m).withReg w = Arch.mk p w l m := rfl
@[simp] theorem State.withReg_arch (s : State) (w : Word) : (s.withReg w).arch = s.arch.withReg w := rfl

@[simp] theorem pushW_withReg (v w : Word) (a : Arch) : pushW v (a.withReg w) = (·.withReg w) <$> pushW v a := by
  by_cases hf : a.stack.length = stackCap
  · rw [pushW_full v hf, pushW_full v (a := a.withReg w) hf]
    rfl
  · simp [pushW, hf, Arch.withReg]

@[simp] theorem popW_withReg (w : Word) (a : Arch) :
    popW (a.withReg w) = (fun r => (r.1, r.2.withReg w)) <$> popW a := by
  rcases Nat.lt_or_ge a.stack.length 1 with hl | hl
  · have hs : a.stack = [] := List.length_eq_zero_iff.mp (by omega)
    rw [popW_empty hs, popW_empty (a := a.withReg w) hs]
    rfl
  · obtain ⟨r, v, hs⟩ := stack_one hl
    rw [popW_append hs, popW_append (a := a.withReg w) hs]
    rfl

@[simp] theorem requireDepth_withReg (n : Nat) (w : Word) (a : Arch) :
    requireDepth n (a.withReg w) = requireDepth n a := rfl

@[simp] theorem advance_withReg (w : Word) (a : Arch) : advance (a.withReg w) = (advance a).withReg w := rfl

@[simp] theorem advanceHalt_withReg (d : Fin 2) (w : Word) (a : Arch) :
    advanceHalt d (a.withReg w) = (advanceHalt d a).withReg w := by
  unfold advanceHalt
  split <;> rfl

theorem binaryStep_withReg (op : Word → Word → Except ExecutionError Word) (w : Word) (a : Arch) :
    binaryStep op (a.withReg w) = (·.withReg w) <$> binaryStep op a := by
  simp [binaryStep]

theorem unaryStep_withReg {op : Arch → Word → Word} (hop : ∀ a x w, op (a.withReg w) x = op a x) (w : Word)
    (a : Arch) : unaryStep op (a.withReg w) = (·.withReg w) <$> unaryStep op a := by
  simp [unaryStep, hop]

/-- A working copy that takes the other register value along commits to the same block up to that value. -/
theorem commit_withReg {r r' : Except ExecutionError Arch} {w : Word} (hr : r' = (·.withReg w) <$> r) {s t : State}
    (h : commit r s = .next t) : ∃ v, commit r' (s.withReg w) = .next (t.withReg v) := by
  subst hr
  rcases commit_cases h with ⟨a, rfl, rfl⟩ | ⟨e, rfl, rfl⟩ <;> exact ⟨w, rfl⟩

/-- A working copy that does not see the register at all commits its own value of it. -/
theorem commit_same_withReg {r : Except ExecutionError Arch} {s t : State} (h : commit r s = .next t) (w : Word) :
    ∃ v, commit r (s.withReg w) = .next (t.withReg v) := by
  rcases commit_cases h with ⟨a, rfl, rfl⟩ | ⟨e, rfl, rfl⟩
  · exact ⟨a.reg, rfl⟩
  · exact ⟨w, rfl⟩

/-- Another value in the register changes no instruction but Push, up to the register itself (R123). -/
theorem exec_withReg {i : Instr} {s t : State} (hi : i ≠ .push) (h : exec i s = .next t) (w : Word) :
    ∃ v, exec i (s.withReg w) = .next (t.withReg v) := by
  cases i with
  | push => exact absurd rfl hi
  | nop => cases h; exact ⟨w, rfl⟩
  | read | write | jumpIf => cases h; exact ⟨w, rfl⟩
  | halt =>
    cases h
    refine ⟨w, ?_⟩
    simp only [exec, execHalt, State.withReg_arch, advanceHalt_withReg]
    rfl
  | set x => exact commit_same_withReg (r := .ok (advance { s.arch with reg := x })) h w
  | pop =>
    -- what Pop commits never sees the old register
    have same : exec .pop (s.withReg w) =
        commit (popW s.arch >>= fun r => pure (advance { r.2 with reg := r.1 })) (s.withReg w) := by
      simp [exec, execPop]
    rw [same]
    exact commit_same_withReg h w
  | load => exact commit_withReg (unaryStep_withReg (fun _ _ _ => rfl) w s.arch) h
  | not => exact commit_withReg (unaryStep_withReg (fun _ _ _ => rfl) w s.arch) h
  | add | sub | mul | div | mod | cmp | and | or | xor => exact commit_withReg (binaryStep_withReg _ w s.arch) h
  | jump =>
    refine commit_withReg ?_ h
    simp
  | store =>
    refine commit_withReg ?_ h
    simp [advance]

/-! ### The moves of a step and of the host -/

/-- Everything a step of the block can do, by phase (R180). -/
inductive StepMove (s : State) : State → Prop
  | wait (h : s.phase = .idle ∨ s.phase = .ready) : StepMove s s
  | decodeFails {bytes : List Byte} {e : DecodeError} (h : s.phase = .decoding bytes) (hd : decode bytes = .error e) :
      StepMove s (s.setPhase (.decodeFailed e))
  | decoded {bytes : List Byte} {p : Program} (h : s.phase = .decoding bytes) (hd : decode bytes = .ok p)
      (hp : programFits s.config p) : StepMove s ((s.setProgram p).setPhase .ready)
  | ends (h : s.phase = .running) (hf : fetch s = none) : StepMove s (s.setPhase .ended)
  | runs {i : Instr} {t : State} (h : s.phase = .running) (hf : fetch s = some i) (hx : exec i s = .next t) :
      StepMove s t
  | emits {i : Instr} {u : State} (h : s.phase = .running) (hf : fetch s = some i) (hx : exec i s = .next u)
      (hm : u.mode = .observed) : StepMove s (u.emit i)

theorem decodeInput_cases {bytes : List Byte} {s t : State} (h : decodeInput bytes s = .next t) :
    (∃ e, decode bytes = .error e ∧ t = s.setPhase (.decodeFailed e)) ∨
    ∃ p, decode bytes = .ok p ∧ programFits s.config p ∧ t = (s.setProgram p).setPhase .ready := by
  simp only [decodeInput] at h
  split at h
  · cases h
    exact .inl ⟨_, by assumption, rfl⟩
  · split at h
    · cases h
      exact .inr ⟨_, by assumption, by assumption, rfl⟩
    · cases h

theorem step_cases {s t : State} (h : step s = .next t) : StepMove s t := by
  cases hp : s.phase with
  | idle =>
    simp only [step, hp, waitForHost] at h
    cases h
    exact .wait (.inl hp)
  | ready =>
    simp only [step, hp, waitForHost] at h
    cases h
    exact .wait (.inr hp)
  | decoding bytes =>
    simp only [step, hp] at h
    rcases decodeInput_cases h with ⟨e, hd, rfl⟩ | ⟨p, hd, hfits, rfl⟩
    · exact .decodeFails hp hd
    · exact .decoded hp hd hfits
  | running =>
    rcases step_running_cases hp h with ⟨hf, rfl⟩ | ⟨i, u, hf, hx, rfl | ⟨rfl, hm⟩⟩
    · exact .ends hp hf
    · exact .runs hp hf hx
    · exact .emits hp hf hx hm
  | decodeFailed | halted | ended | faulted => simp [step, hp] at h

/-- The engine adds nothing to what the fetched instruction does to the State (R22). -/
theorem step_running_arch {s t : State} (hr : s.phase = .running) (h : step s = .next t) {i : Instr}
    (hf : fetch s = some i) : ∃ u, exec i s = .next u ∧ t.arch = u.arch ∧ t.phase = u.phase := by
  rcases step_running_cases hr h with ⟨hnone, -⟩ | ⟨j, u, hj, hx, ht⟩
  · simp [hnone] at hf
  · obtain rfl : j = i := Option.some.inj (hj.symm.trans hf)
    refine ⟨u, hx, ?_⟩
    rcases ht with rfl | ⟨rfl, -⟩ <;> exact ⟨rfl, rfl⟩

theorem fetch_none_iff {s : State} : fetch s = none ↔ (programOf s).length ≤ s.arch.pc.toNat :=
  List.getElem?_eq_none_iff

/-- Everything an action of the host can do (R230, R232, R236, R238). -/
inductive HostMove (s : State) : HostAction → State → Prop
  | reset : HostMove s .reset { State.reset with cfg := s.cfg }
  | present {bytes : List Byte} (h : s.phase = .idle) (hb : inputFits s.config bytes) :
      HostMove s (.present bytes) (s.setPhase (.decoding bytes))
  | launch {a : Arch} (h : s.phase = .ready) (ha : archValid a) : HostMove s (.launch a) (s.setArch a)
  | start {m : RunMode} (h : s.phase = .ready) : HostMove s (.start m) ((s.setMode m).setPhase .running)

theorem hostAct_cases {act : HostAction} {s t : State} (h : hostAct act s = .next t) : HostMove s act t := by
  cases act with
  | reset =>
    cases h
    exact .reset
  | present bytes =>
    simp only [hostAct, hostPresent] at h
    split at h
    · split at h
      · cases h
        exact .present (by assumption) (by assumption)
      · cases h
    · cases h
  | launch a =>
    simp only [hostAct, hostLaunch] at h
    split at h
    · split at h
      · cases h
        exact .launch (by assumption) (by assumption)
      · cases h
    · cases h
  | start m =>
    simp only [hostAct, hostStart] at h
    split at h
    · cases h
      exact .start (by assumption)
    · cases h

/-! ### The invariant under each update of the block -/

theorem inv_reset (c : OpenParams) : Inv { State.reset with cfg := c } where
  valid := ⟨Nat.zero_le _, reset_mem_wf⟩
  fits := nofun
  held := rfl
  untouched _ := rfl
  quiet _ := rfl
  emitted := nofun
  past := nofun

theorem Inv.setPhase {s : State} (h : Inv s) {p : Phase} (hb : p.beforeReady = s.phase.beforeReady)
    (hr : p ≠ .ready) (hp : p = .ended → (programOf s).length ≤ s.arch.pc.toNat) : Inv (s.setPhase p) where
  valid := h.valid
  fits := h.fits
  held := by simpa [hb] using h.held
  untouched hp' := h.untouched (hb ▸ hp')
  quiet
    | .inl hp' => h.quiet (.inl (hb ▸ hp'))
    | .inr (.inl hp') => absurd hp' hr
    | .inr (.inr hm) => h.quiet (.inr (.inr hm))
  emitted := h.emitted
  past := hp

theorem Inv.setArch {s : State} (h : Inv s) {a : Arch} (ha : archValid a) (hb : s.phase.beforeReady = false)
    (he : s.phase ≠ .ended) : Inv (s.setArch a) where
  valid := ha
  fits := h.fits
  held := h.held
  untouched hp := absurd hp (by simp [hb])
  quiet := h.quiet
  emitted := h.emitted
  past hp := absurd hp he

theorem Inv.setMode {s : State} (h : Inv s) (m : RunMode) (ht : s.trace = []) : Inv (s.setMode m) :=
  { h with quiet := fun _ => ht }

theorem Inv.emit {s : State} (h : Inv s) (i : Instr) (hb : s.phase.beforeReady = false) (hr : s.phase ≠ .ready)
    (hm : s.mode = .observed) : Inv (s.emit i) where
  valid := h.valid
  fits := h.fits
  held := h.held
  untouched := h.untouched
  quiet hq := by simp [hb, hr, hm] at hq
  emitted e he := by
    rcases List.mem_append.mp he with he | he
    · exact h.emitted e he
    · rw [List.mem_singleton.mp he]
      exact h.valid
  past := h.past

/-- A decode that succeeds fills the Program store and leads to `READY` (R180). -/
theorem Inv.loadProgram {s : State} (h : Inv s) {p : Program} (hb : s.phase.beforeReady = true)
    (hp : programFits s.config p) : Inv ((s.setProgram p).setPhase .ready) where
  valid := h.valid
  fits _ hq := Option.some.inj hq ▸ hp
  held := rfl
  untouched := nofun
  quiet _ := h.quiet (.inl hb)
  emitted := h.emitted
  past := nofun

theorem advanceHalt_valid {a : Arch} (h : archValid a) (d : Fin 2) : archValid (advanceHalt d a) := by
  simpa [archValid] using h

theorem Inv.after_exec {s t : State} {i : Instr} (h : Inv s) (hr : s.phase = .running)
    (hx : exec i s = .next t) : Inv t := by
  have setArch {a : Arch} (ha : archValid a) : Inv (s.setArch a) := h.setArch ha (by rw [hr]; rfl) (by simp [hr])
  rcases exec_cases hx with ⟨a, rfl, ha⟩ | ⟨e, rfl⟩ | ⟨-, rfl⟩
  · exact setArch (ha.valid h.valid)
  · exact h.setPhase (by rw [hr]; rfl) nofun nofun
  · exact (setArch (advanceHalt_valid h.valid _)).setPhase (by rw [State.setArch_phase, hr]; rfl) nofun nofun

/-- A fetched position lies in a Program of at most `PROG_MAX_LEN` instructions, so it is no Word's top (R23). -/
theorem Inv.pc_lt_of_fetch {s : State} (h : Inv s) {i : Instr} (hf : fetch s = some i) :
    s.arch.pc.toNat < 2 ^ 64 - 1 := by
  obtain ⟨hlt, -⟩ := List.getElem?_eq_some_iff.mp hf
  have hfits : (programOf s).length ≤ s.cfg.progMaxLen.toNat := by
    cases hp : s.program with
    | none => simp [programOf, hp]
    | some p => simpa [programOf, hp, programFits] using h.fits p hp
  have := s.cfg.progMaxLen.isLt
  omega

/-! ### The invariant: the obligations -/

/-- Settles O56, clause by clause of `Inv`. -/
theorem resetMeetsInvariant : Obligations.ResetMeetsInvariant := inv_reset

/-- Settles O57, by the moves of a step: each is an update of the block under which `Inv` is kept. -/
theorem stepKeepsInvariant : Obligations.StepKeepsInvariant := by
  intro s t h hstep
  cases step_cases hstep with
  | wait => exact h
  | decodeFails hp => exact h.setPhase (by rw [hp]; rfl) nofun nofun
  | decoded hp _ hfits => exact h.loadProgram (by rw [hp]; rfl) hfits
  | ends hr hf => exact h.setPhase (by rw [hr]; rfl) nofun fun _ => fetch_none_iff.mp hf
  | runs hr _ hx => exact h.after_exec hr hx
  | emits hr _ hx hm =>
    obtain ⟨hb, hne⟩ := exec_phase_past_ready hr hx
    exact (h.after_exec hr hx).emit _ hb hne hm

/-- Settles O58: reset gives the reset state, and every other action is an update of the block in a phase that takes
it. -/
theorem hostActionsKeepInvariant : Obligations.HostActionsKeepInvariant := by
  intro s t act h hact
  cases hostAct_cases hact with
  | reset => exact inv_reset s.cfg
  | present hp => exact h.setPhase (by rw [hp]; rfl) nofun nofun
  | launch hp ha => exact h.setArch ha (by rw [hp]; rfl) (by simp [hp])
  | start hp =>
    have htrace : s.trace = [] := h.quiet (.inr (.inl hp))
    exact (h.setMode _ htrace).setPhase (by rw [State.setMode_phase, hp]; rfl) nofun nofun

/-- The invariant holds along every execution: the induction over `Reachable`, done once. -/
theorem Reachable.inv {s : State} (h : Reachable s) : Inv s := by
  induction h with
  | reset c => exact resetMeetsInvariant c
  | step _ hstep ih => exact stepKeepsInvariant _ _ ih hstep
  | host act _ hact ih => exact hostActionsKeepInvariant _ _ act ih hact

/-- Settles O59: both claims are clauses of the invariant. -/
theorem reachableStatesAreValid : Obligations.ReachableStatesAreValid := by
  intro s h
  obtain ⟨hstack, hmem⟩ := h.inv.valid
  exact ⟨hstack, hmem, h.inv.emitted⟩

/-- Settles O39: the bound on the Program bounds the fetched pc, and below the top the advance is exact. -/
theorem pcStaysBelowTopInARun : Obligations.PcStaysBelowTopInARun := by
  intro s t i h hr hf hstep
  have hpc := h.pc_lt_of_fetch hf
  refine ⟨by omega, fun hj hh ht => ?_⟩
  obtain ⟨u, hx, harch, hphase⟩ := step_running_arch hr hstep hf
  have heffect := exec_effect hx (by simp [← hphase, ht]) hh
  rw [harch, heffect.pc_eq hj, nextPc_toNat hpc]

/-! ### What every opcode does and leaves: the obligations -/

/-- Settles O24: the instruction's own effect on pc, and that a step of the block takes it over. -/
theorem pcEffectOfEveryOpcode : Obligations.PcEffectOfEveryOpcode := by
  constructor
  · intro i s t hr hx
    refine ⟨fun ⟨e, he⟩ => by rw [exec_faulted_arch hr hx he], fun hok hpc => ⟨?_, ?_, fun hj hh => ?_⟩⟩
    · rintro rfl
      exact (exec_effect hx hok nofun).jump_target
    · rintro rfl
      rw [exec_halt_arch hx, advanceHalt_pc_toNat hpc]
    · rw [(exec_effect hx hok hh).pc_eq hj, nextPc_of_lt hpc]
  · intro s t hr hstep
    refine ⟨fun i hf => ?_, fun hnone => ?_⟩
    · obtain ⟨u, hx, harch, -⟩ := step_running_arch hr hstep hf
      exact ⟨u, hx, harch⟩
    · rcases step_running_cases hr hstep with ⟨-, rfl⟩ | ⟨i, u, hf, -⟩
      · rfl
      · simp [hnone] at hf

/-- Settles O25: Halt leaves the stack, and every other success is an `Effect` with its own depth change. -/
theorem depthChangeOfEveryOpcode : Obligations.DepthChangeOfEveryOpcode := by
  intro i s t _ hx hok
  show (t.arch.stack.length : Int) - s.arch.stack.length = depthChange i
  by_cases hh : i = .halt
  · subst hh
    simp [exec_halt_arch hx, depthChange]
  · exact (exec_effect hx hok hh).depth_diff

/-- Settles O26: an error and a Halt leave the stack, and `Effect.beneath` covers the rest. -/
theorem stackBeneathOperandsIsUntouched : Obligations.StackBeneathOperandsIsUntouched := by
  intro i s t hx
  show s.arch.stack.take (s.arch.stack.length - popCount i) <+: t.arch.stack
  rcases exec_cases hx with ⟨a, rfl, ha⟩ | ⟨e, rfl⟩ | ⟨-, rfl⟩
  · exact ha.beneath
  · exact List.take_prefix _ _
  · simpa using List.take_prefix _ s.arch.stack

/-- Settles O27: the frame of reg, and that no working copy but Push's depends on it. -/
theorem registerReadByPushWrittenByPopAndSet : Obligations.RegisterReadByPushWrittenByPopAndSet := by
  constructor
  · intro i s t hx hp hs
    rcases exec_cases hx with ⟨a, rfl, ha⟩ | ⟨e, rfl⟩ | ⟨-, rfl⟩
    · exact ha.reg_eq hp hs
    · rfl
    · simp
  · intro i s t w hi hx
    exact exec_withReg hi hx w

/-- Settles O30: a working copy, an error and Halt's stop write the State and the phase alone. -/
theorem instructionsLeaveTheRestOfTheBlock : Obligations.InstructionsLeaveTheRestOfTheBlock := by
  intro i s t hx
  rcases exec_cases hx with ⟨a, rfl, -⟩ | ⟨e, rfl⟩ | ⟨hi, rfl⟩
  · exact ⟨rfl, rfl, rfl, rfl, .inl rfl⟩
  · exact ⟨rfl, rfl, rfl, rfl, .inr (.inr ⟨e, rfl⟩)⟩
  · exact ⟨rfl, rfl, rfl, rfl, .inr (.inl ⟨hi, rfl⟩)⟩

/-- Settles O31: only an instruction touches memory, and none removes a key. -/
theorem keysNeverShrink : Obligations.KeysNeverShrink := by
  intro s t hstep k hk
  cases step_cases hstep with
  | wait | decodeFails | decoded | ends => exact hk
  | runs _ _ hx | emits _ _ hx => exact exec_hasKey_of_hasKey hx hk

end Sys2Proof.Machine
end

section
/-! Memory: what an unwritten address reads, what a Load sees after a Store, that no other instruction changes memory,
and that no step of a run changes the Program. -/

namespace Sys2Proof.Machine

/-- A list of cells reads as unlisted wherever none of them stands, in whatever order they are. -/
theorem cellsRead_of_absent {cs : List (Nat × Word)} {a : Nat} (h : ∀ c ∈ cs, c.1 ≠ a) :
    cellsRead cs a = Memory.unlisted := by
  induction cs with
  | nil => rfl
  | cons c cs ih =>
    obtain ⟨hc, hcs⟩ := List.forall_mem_cons.mp h
    rw [cellsRead, if_neg hc, ih hcs]

/-- Only a Store touches the memory (R50). -/
theorem Effect.mem_eq {i : Instr} {a b : Arch} (h : Effect i a b) (hi : i ≠ .store) : b.mem = a.mem := by
  cases h with
  | store => exact absurd rfl hi
  | _ => rfl

/-- `Effect.mem_eq` over the whole block: an error and a Halt leave the memory too. -/
theorem exec_mem_eq {i : Instr} {s t : State} (h : exec i s = .next t) (hi : i ≠ .store) :
    t.arch.mem = s.arch.mem := by
  rcases exec_cases h with ⟨a, rfl, ha⟩ | ⟨e, rfl⟩ | ⟨-, rfl⟩
  · exact ha.mem_eq hi
  · rfl
  · simp

/-- Load with its operand on the stack. -/
theorem execLoad_append {s : State} {r : List Word} {b : Word} (h : s.arch.stack = r ++ [b])
    (hv : s.arch.stack.length ≤ stackCap) :
    exec .load s =
      .next (s.setArch { s.arch with stack := r ++ [memRead s.arch.mem b], pc := nextPc s.arch.pc }) := by
  rw [exec, execLoad, unaryStep_append h hv, commit_ok]

/-! ### Memory: the obligations -/

/-- Settles O6: in canonical form every cell's address is a key, so no cell stands at the address. -/
theorem unwrittenAddressReadsZero : Obligations.UnwrittenAddressReadsZero := by
  intro m a ⟨_, hcells, _, _⟩ hkey
  refine cellsRead_of_absent fun c hc heq => hkey ?_
  obtain ⟨-, hmem⟩ := hcells c hc
  rwa [heq] at hmem

/-- Settles O7: the Store leaves the Load's address on top, and the Load reads the memory the Store wrote. -/
theorem loadAfterStoreSeesLatestValue : Obligations.LoadAfterStoreSeesLatestValue := by
  intro s rest b v addr hs hlen hm
  have hstore := execStore_append (s := s) (r := rest ++ [b]) (v := v) (a := addr) (by simp [hs])
  have hroom : (rest ++ [b]).length ≤ stackCap := by
    have : stackCap = 65535 := rfl
    simp [hs] at hlen ⊢
    omega
  refine ⟨_, _, hstore, execLoad_append rfl hroom, ?_⟩
  simp [memRead_memWrite hm]

/-- Settles O28: an instruction other than Store keeps the memory whole, hence every address and key of it. -/
theorem onlyStoreChangesMemory : Obligations.OnlyStoreChangesMemory := by
  intro i s t hi hx b
  rw [exec_mem_eq hx hi]
  exact ⟨rfl, Iff.rfl⟩

/-- Settles O40: the end of the Program moves the phase alone, the observer emits alone, and the instruction between
them leaves the rest of the block (O30). -/
theorem programIsImmutableInARun : Obligations.ProgramIsImmutableInARun := by
  intro s t hr hstep
  rcases step_running_cases hr hstep with ⟨-, rfl⟩ | ⟨i, u, -, hx, ht⟩
  · exact ⟨rfl, rfl, rfl⟩
  · obtain ⟨hcfg, hprogram, hmode, -, -⟩ := instructionsLeaveTheRestOfTheBlock i s u hx
    rcases ht with rfl | ⟨rfl, -⟩ <;> exact ⟨hprogram, hcfg, hmode⟩

end Sys2Proof.Machine
end

section
/-! The decoder and the encoder: the opcode map as an equivalence, the literal's two directions, the instruction at an
opcode position, and how every byte sequence divides into encoded instructions and an undecodable rest. -/

namespace Sys2Proof

/-! ### The opcode map (R72) -/

/-- The payload-free rows are the encoder's opcode bytes, without that of `Set`. -/
theorem payloadFree_eq_some_iff {b : Byte} {i : Instr} : payloadFree b = some i ↔ opcode i = b ∧ b ≠ setOpcode := by
  constructor
  · intro h
    obtain ⟨l, r, hrows, -⟩ := List.lookup_eq_some_iff.mp h
    have hmem : (b, i) ∈ opcodeRows := by simp [hrows]
    obtain ⟨hset, -⟩ := List.pairwise_cons.mp opcodes_distinct
    exact ⟨opcodeRows_agree _ hmem, (hset b (List.mem_map_of_mem hmem)).symm⟩
  · rintro ⟨rfl, h⟩
    cases i with
    | set w => exact absurd rfl h
    | _ => rfl

/-- Every byte up to 0x14 is an opcode (R72). -/
theorem mem_opcodes {b : Byte} (h : b.toNat ≤ 0x14) : b ∈ setOpcode :: opcodeRows.map Prod.fst := by
  simp [setOpcode, opcodeRows, Config.settled, ← BitVec.toNat_inj]
  omega

theorem exists_payloadFree {b : Byte} (hb : b ≠ setOpcode) (hle : b.toNat ≤ 0x14) : ∃ i, payloadFree b = some i := by
  obtain ⟨⟨_, i⟩, hrow, rfl⟩ := List.mem_map.mp (List.mem_of_ne_of_mem hb (mem_opcodes hle))
  exact ⟨i, payloadFree_eq_some_iff.mpr ⟨opcodeRows_agree _ hrow, hb⟩⟩

theorem opcode_toNat_le (i : Instr) : (opcode i).toNat ≤ 0x14 := by
  cases i with
  | set w => exact (by decide : setOpcode.toNat ≤ 0x14)
  | _ => decide

theorem payloadFree_eq_none {b : Byte} (h : 0x14 < b.toNat) : payloadFree b = none := by
  refine Option.eq_none_iff_forall_ne_some.mpr fun i hi => ?_
  obtain ⟨rfl, -⟩ := payloadFree_eq_some_iff.mp hi
  exact absurd (opcode_toNat_le i) (by omega)

theorem ne_setOpcode_of_lt {b : Byte} (h : 0x14 < b.toNat) : b ≠ setOpcode := by
  rintro rfl
  exact absurd h (by decide)

/-- Only `Set` has a payload (R71). -/
theorem payload_eq_nil {i : Instr} (h : opcode i ≠ setOpcode) : payload i = [] := by
  cases i with
  | set w => exact absurd rfl h
  | _ => rfl

theorem encode_of_payloadFree {b : Byte} {i : Instr} (h : payloadFree b = some i) : encode i = [b] := by
  obtain ⟨rfl, hb⟩ := payloadFree_eq_some_iff.mp h
  rw [encode, payload_eq_nil hb]

/-! ### The literal of `Set` (R74, R84) -/

theorem literalWord_toNat (p0 p1 p2 p3 p4 p5 p6 p7 : Byte) :
    (literalWord [p0, p1, p2, p3, p4, p5, p6, p7]).toNat =
      p0.toNat * 2 ^ 56 + p1.toNat * 2 ^ 48 + p2.toNat * 2 ^ 40 + p3.toNat * 2 ^ 32 +
        p4.toNat * 2 ^ 24 + p5.toNat * 2 ^ 16 + p6.toNat * 2 ^ 8 + p7.toNat := by
  simp only [literalWord, List.foldl_cons, List.foldl_nil, BitVec.toNat_ofNat]
  omega

/-- One step of reading base-256 digits: the digits above position `k`, then the digit there. -/
theorem shiftRight_digit (n k : Nat) : n >>> (k + 8) * 256 + n >>> k % 256 = n >>> k := by
  rw [Nat.shiftRight_add, Nat.shiftRight_eq_div_pow (n >>> k)]
  omega

theorem literalWord_literalPayload (w : Word) : literalWord (literalPayload w) = w := by
  have htop : w.toNat >>> 56 % 256 = w.toNat >>> 56 := by
    rw [Nat.shiftRight_eq_div_pow]
    omega
  simp only [literalWord, literalPayload, List.foldl_cons, List.foldl_nil, BitVec.extractLsb'_toNat, Nat.zero_mul,
    Nat.zero_add, Nat.reducePow, htop]
  iterate 7 rw [shiftRight_digit]
  simp

theorem literalPayload_literalWord {l : List Byte} (h : l.length = literalBytes) :
    literalPayload (literalWord l) = l := by
  match l, h with
  | [p0, p1, p2, p3, p4, p5, p6, p7], _ =>
    simp only [literalPayload, List.cons.injEq, and_true, ← BitVec.toNat_inj, BitVec.extractLsb'_toNat,
      literalWord_toNat, Nat.shiftRight_eq_div_pow]
    refine ⟨?_, ?_, ?_, ?_, ?_, ?_, ?_, ?_⟩ <;> omega

/-! ### The single-instruction decoder, one equation per case of R76 -/

theorem decodeOne_literal {l : List Byte} (h : l.length = literalBytes) :
    decodeOne (setOpcode :: l) = .ok (.set (literalWord l)) := by
  simp [decodeOne, h]

theorem decodeOne_incompleteLiteral {l : List Byte} (h : l.length < literalBytes) :
    decodeOne (setOpcode :: l) = .error .incompleteLiteral := by
  simp [decodeOne, h]

theorem decodeOne_unrecognized {b : Byte} (h : 0x14 < b.toNat) (l : List Byte) :
    decodeOne (b :: l) = .error .unrecognizedOpcode := by
  simp [decodeOne, ne_setOpcode_of_lt h, payloadFree_eq_none h]

theorem decodeOne_payloadFree {b : Byte} {i : Instr} (h : payloadFree b = some i) (l : List Byte) :
    decodeOne (b :: l) = if l = [] then .ok i else .error .unexpectedPayload := by
  obtain ⟨-, hb⟩ := payloadFree_eq_some_iff.mp h
  simp [decodeOne, hb, h]

/-! ### The instruction at an opcode position (R73, R75) -/

/-- Any opcode but that of `Set` is handed to the single-instruction decoder alone. -/
theorem decodeHead_of_ne {b : Byte} (hb : b ≠ setOpcode) (rest : List Byte) :
    decodeHead (b :: rest) = decodeOne [b] := by
  simp [decodeHead, sliceLength, hb]

theorem decodeHead_unrecognized {b : Byte} (h : 0x14 < b.toNat) (rest : List Byte) :
    decodeHead (b :: rest) = .error .unrecognizedOpcode := by
  rw [decodeHead_of_ne (ne_setOpcode_of_lt h), decodeOne_unrecognized h]

theorem decodeHead_incompleteLiteral {rest : List Byte} (h : rest.length < literalBytes) :
    decodeHead (setOpcode :: rest) = .error .incompleteLiteral := by
  have hslice : sliceLength (setOpcode :: rest) = rest.length + 1 := by
    simp [sliceLength]
    omega
  rw [decodeHead, hslice, List.take_succ_cons, List.take_length, decodeOne_incompleteLiteral h]

/-- The slice at an encoded instruction is its encoding, whatever follows. -/
theorem sliceLength_encode_append (i : Instr) (tail : List Byte) :
    sliceLength (encode i ++ tail) = (encode i).length := by
  cases i with
  | set w =>
    simp [encode, opcode, payload, sliceLength, literalBytes, Config.settled]
    omega
  | _ => rfl

theorem decodeOne_encode (i : Instr) : decodeOne (encode i) = .ok i := by
  cases i with
  | set w =>
    rw [show encode (.set w) = setOpcode :: literalPayload w from rfl, decodeOne_literal (literal_length w),
      literalWord_literalPayload]
  | _ => rfl

theorem decodeHead_encode_append (i : Instr) (tail : List Byte) : decodeHead (encode i ++ tail) = .ok i := by
  rw [decodeHead, sliceLength_encode_append, List.take_left, decodeOne_encode]

/-- What can stand at an opcode position: an encoded instruction, or one of two failures (R77). -/
theorem decodeHead_cases (b : Byte) (rest : List Byte) :
    (∃ i tail, b :: rest = encode i ++ tail) ∨ decodeHead (b :: rest) = .error .unrecognizedOpcode ∨
      decodeHead (b :: rest) = .error .incompleteLiteral := by
  by_cases hb : b = setOpcode
  · subst hb
    rcases Nat.lt_or_ge rest.length literalBytes with hl | hl
    · exact .inr (.inr (decodeHead_incompleteLiteral hl))
    · have hlit : encode (.set (literalWord (rest.take literalBytes))) = setOpcode :: rest.take literalBytes :=
        congrArg (setOpcode :: ·) (literalPayload_literalWord (List.length_take_of_le hl))
      exact .inl ⟨.set _, rest.drop literalBytes, by rw [hlit, List.cons_append, List.take_append_drop]⟩
  · rcases Nat.lt_or_ge 0x14 b.toNat with hlt | hle
    · exact .inr (.inl (decodeHead_unrecognized hlt rest))
    · obtain ⟨i, hi⟩ := exists_payloadFree hb hle
      exact .inl ⟨i, rest, by rw [encode_of_payloadFree hi]; rfl⟩

/-! ### The stream decoder over encoded instructions (R75, R84) -/

@[simp] theorem encodeProgram_nil : encodeProgram [] = [] := rfl

@[simp] theorem encodeProgram_cons (i : Instr) (p : Program) :
    encodeProgram (i :: p) = encode i ++ encodeProgram p := rfl

theorem decodeFrom_error {b : Byte} {rest : List Byte} {k : DecodeErrorKind} (h : decodeHead (b :: rest) = .error k)
    (off : Nat) : decodeFrom 0 off (b :: rest) = .error { kind := k, offset := off } := by
  simp [decodeFrom, h]

theorem decodeFrom_encode_append (i : Instr) (off : Nat) (tail : List Byte) :
    decodeFrom 0 off (encode i ++ tail) = (i :: ·) <$> decodeFrom 0 (off + (encode i).length) tail := by
  have hhead := decodeHead_encode_append i tail
  have hslice := sliceLength_encode_append i tail
  have hoff : off + 1 + (payload i).length = off + (encode i).length := by
    simp [encode]
    omega
  rw [show encode i ++ tail = opcode i :: (payload i ++ tail) from rfl] at hhead hslice ⊢
  simp only [decodeFrom, hhead, hslice]
  rw [show (encode i).length - 1 = (payload i).length from rfl, decodeFrom_skip, hoff]
  cases decodeFrom 0 (off + (encode i).length) tail <;> rfl

theorem decodeFrom_encodeProgram_append (p : Program) (off : Nat) (tail : List Byte) :
    decodeFrom 0 off (encodeProgram p ++ tail) =
      (p ++ ·) <$> decodeFrom 0 (off + (encodeProgram p).length) tail := by
  induction p generalizing off with
  | nil => simp
  | cons i p ih =>
    simp [decodeFrom_encode_append, ih, Nat.add_assoc]

theorem decode_encodeProgram (p : Program) : decode (encodeProgram p) = .ok p := by
  have h := decodeFrom_encodeProgram_append p 0 []
  simpa [decode] using h

/-- A byte sequence that fails at the opcode position after `p` fails with that position's offset. -/
theorem decode_encodeProgram_append_error (p : Program) {b : Byte} {rest : List Byte} {k : DecodeErrorKind}
    (h : decodeHead (b :: rest) = .error k) :
    decode (encodeProgram p ++ b :: rest) = .error { kind := k, offset := (encodeProgram p).length } := by
  rw [decode, decodeFrom_encodeProgram_append, decodeFrom_error h, Nat.zero_add]
  rfl

/-! ### Every byte sequence is an encoded Program, or one with an undecodable rest -/

/-- The two shapes of an input of the stream decoder (R75, R77). -/
inductive DecodeShape : List Byte → Prop
  | complete (p : Program) : DecodeShape (encodeProgram p)
  | stuck (p : Program) {b : Byte} {rest : List Byte} {k : DecodeErrorKind} (hk : decodeHead (b :: rest) = .error k)
      (hkind : k = .unrecognizedOpcode ∨ k = .incompleteLiteral) : DecodeShape (encodeProgram p ++ b :: rest)

theorem DecodeShape.cons {bytes : List Byte} (h : DecodeShape bytes) (i : Instr) : DecodeShape (encode i ++ bytes) := by
  cases h with
  | complete p => exact .complete (i :: p)
  | stuck p hk hkind =>
    rw [← List.append_assoc]
    exact .stuck (i :: p) hk hkind

theorem decodeShape (bytes : List Byte) : DecodeShape bytes := by
  match bytes with
  | [] => exact .complete []
  | b :: rest =>
    rcases decodeHead_cases b rest with ⟨i, tail, h⟩ | h | h
    · have : tail.length ≤ rest.length := by
        have hlen := congrArg List.length h
        simp [encode] at hlen
        omega
      rw [h]
      exact (decodeShape tail).cons i
    · exact .stuck [] h (.inl rfl)
    · exact .stuck [] h (.inr rfl)
termination_by bytes.length

/-- `Laws.EncodedLength.Statement` for every variant at once. -/
theorem encode_length (i : Instr) : (encode i).length = if opcode i = setOpcode then 9 else 1 := by
  cases i <;> rfl

/-- R80's length law, over the encoding. -/
theorem encodeProgram_length (p : Program) :
    (encodeProgram p).length = p.length + 8 * p.countP (fun i => opcode i == setOpcode) := by
  induction p with
  | nil => rfl
  | cons i p ih =>
    simp only [encodeProgram_cons, List.length_append, List.length_cons, List.countP_cons, encode_length, ih, beq_iff_eq]
    split <;> omega

/-! ### Encoding: the obligations -/

/-- Settles O50: the decoder runs over an encoded Program instruction by instruction. -/
theorem decodeOfEncodeIsTheProgram : Obligations.DecodeOfEncodeIsTheProgram := decode_encodeProgram

/-- Settles O51: an input that decodes is an encoded Program, and that Program is the one decoded. -/
theorem encodeOfDecodeIsTheInput : Obligations.EncodeOfDecodeIsTheInput := by
  intro bytes p h
  cases decodeShape bytes with
  | complete q =>
    rw [decode_encodeProgram] at h
    rw [Except.ok.inj h]
  | stuck q hk =>
    rw [decode_encodeProgram_append_error q hk] at h
    cases h

/-- Settles O48: eight bytes are the base-256 digits of a number below 2^64. -/
theorem literalIsBigEndian : Obligations.LiteralIsBigEndian := by
  intro p0 p1 p2 p3 p4 p5 p6 p7
  exact ⟨_, decodeOne_literal rfl, literalWord_toNat p0 p1 p2 p3 p4 p5 p6 p7⟩

/-- Settles O49, one equation of the single-instruction decoder per case. -/
theorem decodeOneCaseByCase : Obligations.DecodeOneCaseByCase := by
  refine ⟨rfl, fun b rest h => decodeOne_unrecognized h rest, fun rest h => decodeOne_incompleteLiteral h,
    fun rest h => ⟨_, decodeOne_literal h⟩, fun b rest hle hb hrest => ?_, fun b hle hb => ?_⟩
  · obtain ⟨i, hi⟩ := exists_payloadFree hb hle
    rw [decodeOne_payloadFree hi, if_neg hrest]
  · obtain ⟨i, hi⟩ := exists_payloadFree hb hle
    obtain ⟨hop, -⟩ := payloadFree_eq_some_iff.mp hi
    refine ⟨i, decodeOne_payloadFree hi [], hop, ?_⟩
    rintro w rfl
    exact hb hop.symm

/-- Settles O52: the input is the encoding of the decoded Program (O51), whose length is known. -/
theorem decodedLengthLaw : Obligations.DecodedLengthLaw := by
  intro bytes p h
  have hlen : bytes.length = p.length + 8 * p.countP (fun i => opcode i == 0x06) := by
    rw [← encodeOfDecodeIsTheInput bytes p h]
    exact encodeProgram_length p
  exact ⟨hlen, by omega⟩

/-- Settles O53: an input that fails is stuck at a byte of its own, in one of two ways. -/
theorem onlyTwoDecodeFailuresOccur : Obligations.OnlyTwoDecodeFailuresOccur := by
  intro bytes e h
  cases decodeShape bytes with
  | complete q =>
    rw [decode_encodeProgram] at h
    cases h
  | stuck q hk hkind =>
    rw [decode_encodeProgram_append_error q hk] at h
    cases h
    exact ⟨hkind, by simp⟩

/-- Settles O54: after `p` the decoder stands at the byte, and nothing behind it is read. -/
theorem unrecognizedByteFailsAtItsOffset : Obligations.UnrecognizedByteFailsAtItsOffset := by
  intro p b rest h
  exact decode_encodeProgram_append_error p (decodeHead_unrecognized h rest)

/-- Settles O55: after `p` the decoder stands at the 0x06 byte, whose slice is all that is left. -/
theorem incompleteLiteralFailsAtItsOpcode : Obligations.IncompleteLiteralFailsAtItsOpcode := by
  intro p rest h
  exact decode_encodeProgram_append_error p (decodeHead_incompleteLiteral h)

/-- Settles O47: the written-out bytes are encodings, so O50 decodes them; the table words are evaluated. -/
theorem writtenOutWordsDecode : Obligations.WrittenOutWordsDecode :=
  ⟨decode_encodeProgram [], decode_encodeProgram [.set 5, .push, .set 3, .push, .add, .halt],
    decode_encodeProgram [.load, .store, .jump, .read, .cmp, .not], rfl, rfl⟩

end Sys2Proof
end

section
/-! The control instructions Nop, Halt and Jump (40_control.md): one equation for each way a step of theirs goes, over
every block. -/

namespace Sys2Proof.Machine

/-! ### The advance of pc -/

theorem advance_of_lt {a : Arch} (h : a.pc.toNat < 2 ^ 64 - 1) : advance a = { a with pc := a.pc + 1 } := by
  rw [advance, nextPc_of_lt h]

@[simp] theorem advanceHalt_zero (a : Arch) : advanceHalt 0 a = a := rfl

@[simp] theorem advanceHalt_one (a : Arch) : advanceHalt 1 a = advance a := rfl

/-- Whatever `HALT_PC_DELTA` is, a Halt writes pc alone (R101). -/
theorem advanceHalt_eq_setPc (d : Fin 2) (a : Arch) : ∃ p, advanceHalt d a = { a with pc := p } :=
  match d with
  | 0 => ⟨a.pc, rfl⟩
  | 1 => ⟨nextPc a.pc, rfl⟩

/-! ### One instruction over the whole block -/

theorem exec_nop (s : State) : exec .nop s = .next (s.setArch (advance s.arch)) := rfl

theorem exec_halt (s : State) :
    exec .halt s = .next ((s.setArch (advanceHalt s.cfg.haltPcDelta s.arch)).setPhase .halted) := rfl

/-- Jump without its operand fails at the arity check (R29). -/
theorem execJump_empty {s : State} (h : s.arch.stack = []) :
    exec .jump s = .next (s.setPhase (.faulted .insufficientArguments)) := by
  have hdepth : s.arch.stack.length < 1 := by simp [h]
  rw [exec, execJump, requireDepth_short hdepth]
  rfl

/-- Jump with its target on the stack. -/
theorem execJump_append {s : State} {r : List Word} {target : Word} (h : s.arch.stack = r ++ [target]) :
    exec .jump s = .next (s.setArch { s.arch with pc := target, stack := r }) := by
  have hdepth : 1 ≤ s.arch.stack.length := by simp [h]
  rw [exec, execJump, requireDepth_enough hdepth, popW_append h]
  rfl

/-! ### Control: the obligations -/

/-- Settles O3: the arity check decides between the two equations of Jump. -/
theorem jumpSetsPcToPoppedTarget : Obligations.JumpSetsPcToPoppedTarget :=
  ⟨decode_encodeProgram [.jump], fun _ => ⟨execJump_empty, fun _ _ => execJump_append⟩⟩

/-- Settles O1: Nop commits the advance of pc, which is `pc + 1` below the top and writes pc alone at it too. -/
theorem nopAdvancesPcOnly : Obligations.NopAdvancesPcOnly := by
  refine ⟨decode_encodeProgram [.nop], fun s => ⟨fun hpc => ?_, nextPc s.arch.pc, exec_nop s⟩⟩
  rw [Completes, exec_nop, advance_of_lt hpc]
  rfl

/-- Settles O2: Halt commits its advance of pc and stops, for each value of `HALT_PC_DELTA`. -/
theorem haltAddsDeltaAndStops : Obligations.HaltAddsDeltaAndStops := by
  refine ⟨decode_encodeProgram [.halt], fun s => ⟨fun hzero => ?_, fun hone hpc => ?_, ?_⟩⟩
  · rw [exec_halt, hzero, advanceHalt_zero]
    rfl
  · rw [exec_halt, hone, advanceHalt_one, advance_of_lt hpc]
    rfl
  · obtain ⟨p, hp⟩ := advanceHalt_eq_setPc s.cfg.haltPcDelta s.arch
    refine ⟨p, ?_⟩
    rw [exec_halt, hp]
    rfl

end Sys2Proof.Machine
end

section
/-! The memory instructions Load and Store (41_memory_load_store.md): the failure of each on a short stack, and what a
Store leaves outside the address it pops. -/

namespace Sys2Proof.Machine

/-! ### The arity checks (R29) -/

theorem execLoad_empty {s : State} (h : s.arch.stack = []) :
    exec .load s = .next (s.setPhase (.faulted .insufficientArguments)) := by
  have hdepth : s.arch.stack.length < 1 := by simp [h]
  rw [exec, execLoad, unaryStep_short hdepth, commit_error]

theorem execStore_short {s : State} (h : s.arch.stack.length < 2) :
    exec .store s = .next (s.setPhase (.faulted .insufficientArguments)) := by
  rw [exec, execStore, requireDepth_short h]
  rfl

/-! ### The address of a Store -/

/-- A write leaves every other address, its reading and whether it is a key (R52). -/
theorem memWrite_frame {m : Memory} (hm : m.wf) {a b : Word} (hb : b ≠ a) (v : Word) :
    memRead (memWrite m a v) b = memRead m b ∧ (hasKey (memWrite m a v) b ↔ hasKey m b) := by
  simp [memRead_memWrite hm, hasKey_memWrite, hb]

/-- The one Word a Store writes stands at the address it pops first (R111). -/
theorem Effect.store_mem {a b x : Arch} {addr : Word} (h : Effect .store a b) (hpop : popW a = .ok (addr, x)) :
    ∃ v, b.mem = memWrite a.mem addr v := by
  cases h with
  | @store _ r v top hs =>
    have htop : popW a = .ok (top, { a with stack := r ++ [v] }) := popW_append (by simp [hs])
    rw [htop] at hpop
    cases hpop
    exact ⟨v, rfl⟩
  | binary hi => exact absurd hi (by decide)

/-! ### Load and Store: the obligations -/

/-- Settles O4: the arity check decides between the two equations of Load. -/
theorem loadReplacesAddressByValue : Obligations.LoadReplacesAddressByValue := by
  refine ⟨decode_encodeProgram [.load], fun s hlen => ⟨execLoad_empty, fun rest addr hs hpc => ?_⟩⟩
  rw [Completes, execLoad_append hs hlen, nextPc_of_lt hpc]
  rfl

/-- Settles O5: the arity check decides between the two equations of Store, and the memory is the written one. -/
theorem storeWritesValueAtAddress : Obligations.StoreWritesValueAtAddress := by
  refine ⟨decode_encodeProgram [.store], fun s => ⟨execStore_short, fun rest v addr hs hm hpc => ?_⟩⟩
  refine ⟨memWrite s.arch.mem addr v, ?_, fun b => memRead_memWrite hm addr b v, fun b => hasKey_memWrite _ addr b v⟩
  rw [Completes, execStore_append hs, nextPc_of_lt hpc]
  rfl

/-- Settles O29: a Store that fails leaves the State, and one that succeeds writes at the popped address alone. -/
theorem storeFrameOutsideItsAddress : Obligations.StoreFrameOutsideItsAddress := by
  intro s t addr x hm hx hpop
  rcases exec_cases hx with ⟨a, rfl, ha⟩ | ⟨e, rfl⟩ | ⟨hi, -⟩
  · refine ⟨ha.reg_eq nofun nofun, fun b hb => ?_⟩
    obtain ⟨v, hmem⟩ := ha.store_mem hpop
    rw [State.setArch_arch, hmem]
    exact memWrite_frame hm hb v
  · exact ⟨rfl, fun b _ => ⟨rfl, Iff.rfl⟩⟩
  · cases hi

end Sys2Proof.Machine
end

section
/-! The register and stack instructions Push, Pop and Set (42_register_stack.md): one equation for each way a step of
theirs goes, over every block. -/

namespace Sys2Proof.Machine

/-! ### One instruction over the whole block -/

/-- Push has no arity check: its one failure is the push itself (R120). -/
theorem execPush_full {s : State} (h : s.arch.stack.length = stackCap) :
    exec .push s = .next (s.setPhase (.faulted .stackFull)) := by
  rw [exec, execPush, pushW_full _ h]
  rfl

theorem execPush_room {s : State} (h : s.arch.stack.length < stackCap) :
    exec .push s =
      .next (s.setArch { s.arch with stack := s.arch.stack ++ [s.arch.reg], pc := nextPc s.arch.pc }) := by
  rw [exec, execPush, pushW_room _ h]
  rfl

/-- Pop has no arity check: its one failure is the pop itself (R121, C2). -/
theorem execPop_empty {s : State} (h : s.arch.stack = []) :
    exec .pop s = .next (s.setPhase (.faulted .stackEmpty)) := by
  rw [exec, execPop, popW_empty h]
  rfl

theorem execPop_append {s : State} {r : List Word} {v : Word} (h : s.arch.stack = r ++ [v]) :
    exec .pop s = .next (s.setArch { s.arch with stack := r, reg := v, pc := nextPc s.arch.pc }) := by
  rw [exec, execPop, popW_append h]
  rfl

theorem exec_set (w : Word) (s : State) :
    exec (.set w) s = .next (s.setArch { s.arch with reg := w, pc := nextPc s.arch.pc }) := rfl

/-! ### Register and stack: the obligations -/

/-- Settles O8: the depth decides between the two equations of Push. -/
theorem pushCopiesRegister : Obligations.PushCopiesRegister := by
  refine ⟨decode_encodeProgram [.push], fun s => ⟨execPush_full, fun hroom hpc => ?_⟩⟩
  rw [Completes, execPush_room hroom, nextPc_of_lt hpc]
  rfl

/-- Settles O9: the stack decides between the two equations of Pop. -/
theorem popMovesTopIntoRegister : Obligations.PopMovesTopIntoRegister := by
  refine ⟨decode_encodeProgram [.pop], fun s => ⟨execPop_empty, fun rest v hs hpc => ?_⟩⟩
  rw [Completes, execPop_append hs, nextPc_of_lt hpc]
  rfl

/-- Settles O10: the nine bytes are the encoding of `Set(w)` (R84), and its step commits the advance of pc alone
beside `reg`, which is `pc + 1` below the top. -/
theorem setWritesLiteralToRegister : Obligations.SetWritesLiteralToRegister := by
  refine fun w => ⟨decode_encodeProgram [.set w], fun s => ⟨fun hpc => ?_, nextPc s.arch.pc, exec_set w s⟩⟩
  rw [Completes, exec_set, nextPc_of_lt hpc]
  rfl

end Sys2Proof.Machine
end

section
/-! The reserved instructions Read, Write and JumpIf (43_reserved.md): one equation for the step of each, over every
block. -/

namespace Sys2Proof.Machine

/-! ### One instruction over the whole block -/

/-- No arity stands before the error of Read (R130). -/
theorem exec_read (s : State) : exec .read s = .next (s.setPhase (.faulted .illegalInstruction)) := rfl

theorem exec_write (s : State) : exec .write s = .next (s.setPhase (.faulted .illegalInstruction)) := rfl

/-- JumpIf pops neither a condition nor a target (R132). -/
theorem exec_jumpIf (s : State) : exec .jumpIf s = .next (s.setPhase (.faulted .illegalInstruction)) := rfl

/-! ### Reserved: the obligation -/

/-- Settles O11: the three bytes are the encoding of a Program (R84), and each step moves the phase alone. -/
theorem reservedOpcodesRaiseIllegalInstruction : Obligations.ReservedOpcodesRaiseIllegalInstruction :=
  ⟨decode_encodeProgram [.read, .write, .jumpIf], fun s => ⟨exec_read s, exec_write s, exec_jumpIf s⟩⟩

end Sys2Proof.Machine
end

section
/-! The arithmetic instructions Add, Sub, Mul, Div and Mod (44_arithmetic.md): the three ways a step of the two-operand
form (R148) goes, over every block and for any operation, and when each checked operation of rule R140 has a result. -/

namespace Sys2Proof.Machine

/-! ### The two-operand form over the whole block -/

/-- The meaning of `i` is the two-operand form of `op` (R148). -/
def IsBinary (i : Instr) (op : Word → Word → Except ExecutionError Word) : Prop :=
  ∀ s, exec i s = commit (binaryStep op s.arch) s

theorem isBinary_add : IsBinary .add checkedAdd := fun _ => rfl
theorem isBinary_sub : IsBinary .sub checkedSub := fun _ => rfl
theorem isBinary_mul : IsBinary .mul checkedMul := fun _ => rfl
theorem isBinary_div : IsBinary .div checkedDiv := fun _ => rfl
theorem isBinary_mod : IsBinary .mod checkedMod := fun _ => rfl

section
variable {i : Instr} {op : Word → Word → Except ExecutionError Word} {s : State} {r : List Word} {b a : Word}

/-- The arity check (R29) comes before the operation, whatever the operation is. -/
theorem IsBinary.raises_of_short (hi : IsBinary i op) (h : s.arch.stack.length < 2) :
    Raises i s .insufficientArguments := by
  rw [Raises, hi, binaryStep_short h]
  rfl

/-- An error of the operation is the error of the step. -/
theorem IsBinary.raises_of_error (hi : IsBinary i op) (hs : s.arch.stack = r ++ [b, a])
    (hlen : s.arch.stack.length ≤ stackCap) {e : ExecutionError} (hop : op a b = .error e) : Raises i s e := by
  rw [Raises, hi, binaryStep_append hs hlen, hop]
  rfl

/-- A result of the operation takes the place of its operands. -/
theorem IsBinary.completes_of_ok (hi : IsBinary i op) (hs : s.arch.stack = r ++ [b, a])
    (hlen : s.arch.stack.length ≤ stackCap) (hpc : s.arch.pc.toNat < 2 ^ 64 - 1) {w : Word} (hop : op a b = .ok w) :
    Completes i s { s.arch with stack := r ++ [w], pc := s.arch.pc + 1 } := by
  rw [Completes, hi, binaryStep_append hs hlen, hop, nextPc_of_lt hpc]
  rfl

/-- The three ways a step of a checked operation goes, from the two ways the operation goes: `Fits` with a result that
meets `Result`, or `Fails`. -/
theorem IsBinary.checked_cases (hi : IsBinary i op) {Fits Fails : Word → Word → Prop}
    {Result : Word → Word → Word → Prop} (hfits : ∀ {a b}, Fits a b → ∃ w, Result a b w ∧ op a b = .ok w)
    (hfails : ∀ {a b}, Fails a b → op a b = .error .arithmeticOverflow) (hlen : s.arch.stack.length ≤ stackCap) :
    (s.arch.stack.length < 2 → Raises i s .insufficientArguments) ∧
    (∀ r b a, s.arch.stack = r ++ [b, a] →
      (Fits a b → s.arch.pc.toNat < 2 ^ 64 - 1 →
        ∃ w, Result a b w ∧ Completes i s { s.arch with stack := r ++ [w], pc := s.arch.pc + 1 }) ∧
      (Fails a b → Raises i s .arithmeticOverflow)) := by
  refine ⟨hi.raises_of_short, fun r b a hs => ⟨fun h hpc => ?_, fun h => hi.raises_of_error hs hlen (hfails h)⟩⟩
  obtain ⟨w, hw, hop⟩ := hfits h
  exact ⟨w, hw, hi.completes_of_ok hs hlen hpc hop⟩

end

/-! ### The checked operations (R140) -/

theorem narrow_of_nonneg_of_lt {z : Int} (h0 : 0 ≤ z) (h : z < 2 ^ 64) :
    ∃ r : Word, (r.toNat : Int) = z ∧ narrow z = .ok r := by
  rcases narrow_spec z with ⟨r, hr, hz, -, -⟩ | ⟨-, hz⟩
  · exact ⟨r, hz, hr⟩
  · omega

theorem narrow_of_neg_or_ge {z : Int} (h : z < 0 ∨ 2 ^ 64 ≤ z) : narrow z = .error .arithmeticOverflow := by
  rcases narrow_spec z with ⟨-, -, -, h0, hlt⟩ | ⟨hz, -⟩
  · omega
  · exact hz

/-- A natural number below 2^64 is stored exactly. -/
theorem narrow_natCast {n : Nat} (h : n < 2 ^ 64) : ∃ r : Word, r.toNat = n ∧ narrow n = .ok r := by
  obtain ⟨r, hr, hn⟩ := narrow_of_nonneg_of_lt (z := n) (by omega) (by omega)
  exact ⟨r, by omega, hn⟩

theorem narrow_natCast_of_ge {n : Nat} (h : 2 ^ 64 ≤ n) : narrow n = .error .arithmeticOverflow :=
  narrow_of_neg_or_ge (by omega)

section
variable {a b : Word}

theorem checkedAdd_of_lt (h : a.toNat + b.toNat < 2 ^ 64) :
    ∃ r : Word, r.toNat = a.toNat + b.toNat ∧ checkedAdd a b = .ok r := narrow_natCast h

theorem checkedAdd_of_ge (h : 2 ^ 64 ≤ a.toNat + b.toNat) : checkedAdd a b = .error .arithmeticOverflow :=
  narrow_natCast_of_ge h

theorem checkedMul_of_lt (h : a.toNat * b.toNat < 2 ^ 64) :
    ∃ r : Word, r.toNat = a.toNat * b.toNat ∧ checkedMul a b = .ok r := narrow_natCast h

theorem checkedMul_of_ge (h : 2 ^ 64 ≤ a.toNat * b.toNat) : checkedMul a b = .error .arithmeticOverflow :=
  narrow_natCast_of_ge h

/-- A difference of Words is below 2^64 always: only its sign decides (R140). -/
theorem checkedSub_of_le (h : b.toNat ≤ a.toNat) :
    ∃ r : Word, r.toNat + b.toNat = a.toNat ∧ checkedSub a b = .ok r := by
  obtain ⟨r, hr, hop⟩ := narrow_of_nonneg_of_lt (z := (a.toNat : Int) - b.toNat) (by omega) (by omega)
  exact ⟨r, by omega, hop⟩

theorem checkedSub_of_lt (h : a.toNat < b.toNat) : checkedSub a b = .error .arithmeticOverflow :=
  narrow_of_neg_or_ge (by omega)

theorem checkedDiv_of_zero (h : b.toNat = 0) : checkedDiv a b = .error .arithmeticOverflow := if_pos h

/-- The quotient is the floor (G1), and it is no greater than the dividend. -/
theorem checkedDiv_of_ne_zero (h : b.toNat ≠ 0) :
    ∃ r : Word, (b.toNat * r.toNat ≤ a.toNat ∧ a.toNat < b.toNat * (r.toNat + 1)) ∧ checkedDiv a b = .ok r := by
  obtain ⟨r, hr, hop⟩ := narrow_natCast ((Nat.div_le_self a.toNat b.toNat).trans_lt a.isLt)
  refine ⟨r, ?_, (if_neg h).trans hop⟩
  rw [hr]
  exact ⟨Nat.mul_div_le _ _, Nat.lt_mul_div_succ _ (Nat.pos_of_ne_zero h)⟩

theorem checkedMod_of_zero (h : b.toNat = 0) : checkedMod a b = .error .arithmeticOverflow := if_pos h

/-- The remainder is below the modulus and matches the floor (G1). -/
theorem checkedMod_of_ne_zero (h : b.toNat ≠ 0) :
    ∃ r : Word, (r.toNat < b.toNat ∧ a.toNat = b.toNat * (a.toNat / b.toNat) + r.toNat) ∧
      checkedMod a b = .ok r := by
  obtain ⟨r, hr, hop⟩ := narrow_natCast ((Nat.mod_le a.toNat b.toNat).trans_lt a.isLt)
  refine ⟨r, ?_, (if_neg h).trans hop⟩
  rw [hr]
  exact ⟨Nat.mod_lt _ (Nat.pos_of_ne_zero h), (Nat.div_add_mod _ _).symm⟩

end

/-! ### Arithmetic: the obligations -/

/-- Settles O12: the exact sum is narrowed, and it is a Word exactly below 2^64. -/
theorem addPushesExactSum : Obligations.AddPushesExactSum :=
  ⟨decode_encodeProgram [.add], fun _ => isBinary_add.checked_cases checkedAdd_of_lt checkedAdd_of_ge⟩

/-- Settles O13: the exact difference is narrowed, and it is a Word exactly when it is not negative. -/
theorem subPushesTopMinusBeneath : Obligations.SubPushesTopMinusBeneath :=
  ⟨decode_encodeProgram [.sub], fun _ => isBinary_sub.checked_cases checkedSub_of_le checkedSub_of_lt⟩

/-- Settles O14: the full product is narrowed, and it is a Word exactly below 2^64. -/
theorem mulPushesExactProduct : Obligations.MulPushesExactProduct :=
  ⟨decode_encodeProgram [.mul], fun _ => isBinary_mul.checked_cases checkedMul_of_lt checkedMul_of_ge⟩

/-- Settles O15: a zero divisor is the one failure, and the quotient of natural numbers is the floor. -/
theorem divPushesFloorQuotient : Obligations.DivPushesFloorQuotient := by
  refine ⟨decode_encodeProgram [.div], fun s hlen => ?_⟩
  simpa only [and_assoc] using isBinary_div.checked_cases checkedDiv_of_ne_zero checkedDiv_of_zero hlen

/-- Settles O16: a zero modulus is the one failure, and the remainder of natural numbers matches the floor. -/
theorem modPushesMatchingRemainder : Obligations.ModPushesMatchingRemainder := by
  refine ⟨decode_encodeProgram [.mod], fun s hlen => ?_⟩
  simpa only [and_assoc] using isBinary_mod.checked_cases checkedMod_of_ne_zero checkedMod_of_zero hlen

end Sys2Proof.Machine
end

section
/-! The comparison and bitwise instructions Cmp, And, Or, Not and Xor (45_compare_bitwise.md): the two-operand form
(R148) over an operation that cannot fail (R165), and the two ways a step of Not goes, over every block. -/

namespace Sys2Proof.Machine

/-! ### The two-operand form over a total operation -/

theorem isBinary_cmp : IsBinary .cmp fun a b => .ok (equalWord a b) := fun _ => rfl
theorem isBinary_and : IsBinary .and fun a b => .ok (a &&& b) := fun _ => rfl
theorem isBinary_or : IsBinary .or fun a b => .ok (a ||| b) := fun _ => rfl
theorem isBinary_xor : IsBinary .xor fun a b => .ok (a ^^^ b) := fun _ => rfl

/-- With an operation that cannot fail, the arity check is the only failure (R165), and every result meets what is
known of the operation. -/
theorem IsBinary.total_cases {i : Instr} {f : Word → Word → Word} {s : State}
    (hi : IsBinary i fun a b => .ok (f a b)) {Result : Word → Word → Word → Prop}
    (hresult : ∀ a b, Result a b (f a b)) (hlen : s.arch.stack.length ≤ stackCap) :
    (s.arch.stack.length < 2 → Raises i s .insufficientArguments) ∧
    (∀ r b a, s.arch.stack = r ++ [b, a] → s.arch.pc.toNat < 2 ^ 64 - 1 →
      ∃ w, Result a b w ∧ Completes i s { s.arch with stack := r ++ [w], pc := s.arch.pc + 1 }) :=
  ⟨hi.raises_of_short, fun _ b a hs hpc => ⟨f a b, hresult a b, hi.completes_of_ok hs hlen hpc rfl⟩⟩

/-! ### The operations -/

theorem equalWord_of_eq {a b : Word} (h : a = b) : equalWord a b = 1 := if_pos h

theorem equalWord_of_ne {a b : Word} (h : a ≠ b) : equalWord a b = 0 := if_neg h

/-- As a number, the complement of a Word is its distance from the greatest Word (R163). -/
theorem toNat_not_add_toNat (a : Word) : (~~~a).toNat + a.toNat = 2 ^ 64 - 1 := by
  rw [BitVec.toNat_not]
  omega

/-! ### Not over the whole block -/

theorem execNot_empty {s : State} (h : s.arch.stack = []) :
    exec .not s = .next (s.setPhase (.faulted .insufficientArguments)) := by
  have hdepth : s.arch.stack.length < 1 := by simp [h]
  rw [exec, execNot, unaryStep_short hdepth, commit_error]

/-- The push finds the room that the pop left, also at depth 65535 (R163). -/
theorem execNot_append {s : State} {r : List Word} {a : Word} (h : s.arch.stack = r ++ [a])
    (hlen : s.arch.stack.length ≤ stackCap) :
    exec .not s = .next (s.setArch { s.arch with stack := r ++ [~~~a], pc := nextPc s.arch.pc }) := by
  rw [exec, execNot, unaryStep_append h hlen, commit_ok]

/-! ### Comparison and bitwise: the obligations -/

/-- Settles O17: the equality test decides between the two Words pushed. -/
theorem cmpPushesEquality : Obligations.CmpPushesEquality := by
  refine ⟨decode_encodeProgram [.cmp], fun s hlen => ⟨isBinary_cmp.raises_of_short, fun rest b a hs hpc => ⟨?_, ?_⟩⟩⟩
  · intro heq
    exact isBinary_cmp.completes_of_ok hs hlen hpc (congrArg Except.ok (equalWord_of_eq heq))
  · intro hne
    exact isBinary_cmp.completes_of_ok hs hlen hpc (congrArg Except.ok (equalWord_of_ne hne))

/-- Settles O18: each bit of the Word pushed is the conjunction of the operands' bits. -/
theorem andPushesBitwiseAnd : Obligations.AndPushesBitwiseAnd :=
  ⟨decode_encodeProgram [.and], fun _ => isBinary_and.total_cases fun _ _ _ _ => BitVec.getLsbD_and⟩

/-- Settles O19: each bit of the Word pushed is the disjunction of the operands' bits. -/
theorem orPushesBitwiseOr : Obligations.OrPushesBitwiseOr :=
  ⟨decode_encodeProgram [.or], fun _ => isBinary_or.total_cases fun _ _ _ _ => BitVec.getLsbD_or⟩

/-- Settles O20: the arity check decides between the two equations of Not, and bit by bit and as a number the Word
pushed is the complement. -/
theorem notReplacesTopByComplement : Obligations.NotReplacesTopByComplement := by
  refine ⟨decode_encodeProgram [.not], fun s hlen => ⟨execNot_empty, fun rest a hs hpc => ?_⟩⟩
  refine ⟨~~~a, fun k hk => by simp [hk], toNat_not_add_toNat a, ?_⟩
  rw [Completes, execNot_append hs hlen, nextPc_of_lt hpc]
  rfl

/-- Settles O21: each bit of the Word pushed says whether the operands' bits differ. -/
theorem xorPushesBitwiseXor : Obligations.XorPushesBitwiseXor :=
  ⟨decode_encodeProgram [.xor], fun _ => isBinary_xor.total_cases fun _ _ _ _ => BitVec.getLsbD_xor⟩

end Sys2Proof.Machine
end

section
/-! The run loop (49_run_loop.md): that an instruction depends on the State and HALT_PC_DELTA alone (R184), one
equation for each way a step of the block and the observer go, and the error table's rows as the errors raised. -/

namespace Sys2Proof.Machine

/-! ### An instruction over two blocks -/

/-- The transaction of `exec_transaction` is made from the State alone: two blocks with one State share it (R184). -/
theorem exec_transaction_shared {i : Instr} (hi : i ≠ .halt) {s s' : State} (h : s'.arch = s.arch) :
    ∃ r, exec i s = commit r s ∧ exec i s' = commit r s' := by
  cases i with
  | halt => exact absurd rfl hi
  | nop => exact ⟨.ok (advance s.arch), rfl, by rw [← h]; rfl⟩
  | set w => exact ⟨.ok (advance { s.arch with reg := w }), rfl, by rw [← h]; rfl⟩
  | read | write | jumpIf => exact ⟨.error .illegalInstruction, rfl, rfl⟩
  | _ => exact ⟨_, rfl, by rw [← h]; rfl⟩

/-- Settles O32: a transaction commits one working copy or raises one error in both blocks, and Halt reads
HALT_PC_DELTA beside the State. -/
theorem instructionsDependOnTheStateAlone : Obligations.InstructionsDependOnTheStateAlone := by
  intro i s s' harch hdelta
  by_cases hi : i = .halt
  · subst hi
    refine ⟨advanceHalt s.cfg.haltPcDelta s.arch, some .halted, exec_halt s, ?_⟩
    rw [exec_halt, harch, hdelta]
    rfl
  · obtain ⟨r, hr, hr'⟩ := exec_transaction_shared hi harch
    cases r with
    | ok a => exact ⟨a, none, hr, hr'⟩
    | error e =>
      refine ⟨s.arch, some (.faulted e), hr, ?_⟩
      rw [hr', ← harch]
      rfl

/-- Another run mode changes nothing of an instruction but the mode (R188). -/
theorem exec_setMode {i : Instr} {s u : State} (h : exec i s = .next u) (m : RunMode) :
    exec i (s.setMode m) = .next (u.setMode m) := by
  obtain ⟨x, p, hx, hx'⟩ := instructionsDependOnTheStateAlone i s (s.setMode m) rfl rfl
  rw [h] at hx
  cases hx
  exact hx'

/-! ### The observer (R188) -/

theorem observe_silent {i : Instr} {u : State} (h : u.mode = .silent) : observe i (.next u) = .next u := by
  simp [observe, h]

theorem observe_faulted {i : Instr} {u : State} {e : ExecutionError} (h : u.phase = .faulted e) :
    observe i (.next u) = .next u := by
  cases hm : u.mode <;> simp [observe, hm, h]

theorem observe_emit {i : Instr} {u : State} (hm : u.mode = .observed) (h : ∀ e, u.phase ≠ .faulted e) :
    observe i (.next u) = .next (u.emit i) := by
  cases hp : u.phase with
  | faulted e => exact absurd hp (h e)
  | _ => simp [observe, hm, hp]

/-- Whatever the mode, the observer lets the next state through up to the trace. -/
theorem observe_next (i : Instr) (u : State) : ∃ tr, observe i (.next u) = .next { u with trace := tr } := by
  simp only [observe]
  split
  · exact ⟨u.trace, rfl⟩
  · exact ⟨u.trace, rfl⟩
  · exact ⟨_, rfl⟩

/-! ### A step of the block, by phase (R180, R181) -/

section
variable {s : State}

theorem fetch_of_program {p : Program} (h : s.program = some p) : fetch s = p[s.arch.pc.toNat]? := by
  simp [fetch, programOf, h]

theorem step_decoding {bytes : List Byte} (h : s.phase = .decoding bytes) : step s = decodeInput bytes s := by
  simp [step, h]

theorem step_fetch_none (hr : s.phase = .running) (hf : fetch s = none) : step s = .next (s.setPhase .ended) := by
  simp [step, hr, runStep, hf, endRun]

theorem step_fetch_some {i : Instr} (hr : s.phase = .running) (hf : fetch s = some i) :
    step s = observe i (exec i s) := by
  simp [step, hr, runStep, hf]

/-- A step takes over what the fetched instruction answers, up to the trace. -/
theorem step_of_exec {i : Instr} {u : State} (hr : s.phase = .running) (hf : fetch s = some i)
    (hx : exec i s = .next u) : ∃ tr, step s = .next { u with trace := tr } := by
  rw [step_fetch_some hr hf, hx]
  exact observe_next i u

end

/-! ### The error table (R206): its rows as the errors raised -/

section
variable {i : Instr} {s : State} {e : ExecutionError}

/-- A row whose one error is a stack below the arity. -/
theorem raises_of_arity_row {n : Nat} (hshort : s.arch.stack.length < n → Raises i s .insufficientArguments)
    (h : (if s.arch.stack.length < n then some ExecutionError.insufficientArguments else none) = some e) :
    Raises i s e := by
  obtain ⟨hlt, he⟩ := Option.ite_none_right_eq_some.mp h
  exact Option.some.inj he ▸ hshort hlt

/-- A row of arity 1 fails on the empty stack alone. -/
theorem raises_of_unary_row (hempty : s.arch.stack = [] → Raises i s .insufficientArguments)
    (h : (if s.arch.stack.length < 1 then some ExecutionError.insufficientArguments else none) = some e) :
    Raises i s e :=
  raises_of_arity_row (fun hl => hempty (List.length_eq_zero_iff.mp (Nat.lt_one_iff.mp hl))) h

/-- A row of the two-operand form with a checked operation: a short stack, then an overflow of the operands (R140). -/
theorem IsBinary.raises_of_checked_row {op : Word → Word → Except ExecutionError Word} (hi : IsBinary i op)
    {overflows : Nat → Nat → Bool}
    (hover : ∀ {a b : Word}, overflows a.toNat b.toNat = true → op a b = .error .arithmeticOverflow)
    (hlen : s.arch.stack.length ≤ stackCap)
    (h : (if s.arch.stack.length < 2 then some ExecutionError.insufficientArguments
      else if overflows (s.arch.stack.reverse.getD 0 0).toNat (s.arch.stack.reverse.getD 1 0).toNat then
        some .arithmeticOverflow else none) = some e) :
    Raises i s e := by
  split at h
  · cases h
    exact hi.raises_of_short (by assumption)
  · obtain ⟨hc, he⟩ := Option.ite_none_right_eq_some.mp h
    obtain ⟨r, b, a, hs⟩ := stack_two (l := s.arch.stack) (by omega)
    cases he
    exact hi.raises_of_error hs hlen (hover (by simpa [hs] using hc))

/-- What the table gives, the instruction raises (R206). -/
theorem raises_of_errorTable (hlen : s.arch.stack.length ≤ stackCap) (h : errorTable i s.arch = some e) :
    Raises i s e := by
  cases i with
  | nop | halt | set => cases h
  | read => cases h; exact exec_read s
  | write => cases h; exact exec_write s
  | jumpIf => cases h; exact exec_jumpIf s
  | push =>
    obtain ⟨hfull, he⟩ := Option.ite_none_right_eq_some.mp h
    exact Option.some.inj he ▸ execPush_full hfull
  | pop =>
    obtain ⟨hempty, he⟩ := Option.ite_none_right_eq_some.mp h
    exact Option.some.inj he ▸ execPop_empty (List.length_eq_zero_iff.mp hempty)
  | load => exact raises_of_unary_row execLoad_empty h
  | jump => exact raises_of_unary_row execJump_empty h
  | not => exact raises_of_unary_row execNot_empty h
  | store => exact raises_of_arity_row execStore_short h
  | cmp => exact raises_of_arity_row isBinary_cmp.raises_of_short h
  | and => exact raises_of_arity_row isBinary_and.raises_of_short h
  | or => exact raises_of_arity_row isBinary_or.raises_of_short h
  | xor => exact raises_of_arity_row isBinary_xor.raises_of_short h
  | add =>
    exact isBinary_add.raises_of_checked_row (overflows := fun a b => 2 ^ 64 ≤ a + b)
      (fun ho => checkedAdd_of_ge (of_decide_eq_true ho)) hlen h
  | sub =>
    exact isBinary_sub.raises_of_checked_row (overflows := fun a b => a < b)
      (fun ho => checkedSub_of_lt (of_decide_eq_true ho)) hlen h
  | mul =>
    exact isBinary_mul.raises_of_checked_row (overflows := fun a b => 2 ^ 64 ≤ a * b)
      (fun ho => checkedMul_of_ge (of_decide_eq_true ho)) hlen h
  | div =>
    exact isBinary_div.raises_of_checked_row (overflows := fun _ b => b = 0)
      (fun ho => checkedDiv_of_zero (of_decide_eq_true ho)) hlen h
  | mod =>
    exact isBinary_mod.raises_of_checked_row (overflows := fun _ b => b = 0)
      (fun ho => checkedMod_of_zero (of_decide_eq_true ho)) hlen h

end

/-! ### The run loop: the obligations -/

/-- Settles O34: the fetch finds no instruction exactly at or past len, and an instruction ends no run (O30). -/
theorem runEndsExactlyAtOrPastLen : Obligations.RunEndsExactlyAtOrPastLen := by
  intro s p hr hp
  have hfetch := fetch_of_program hp
  refine ⟨fun hge => ⟨step_fetch_none hr (hfetch.trans (List.getElem?_eq_none hge)), rfl⟩, fun hlt t hstep => ?_⟩
  obtain ⟨u, hx, -, hphase⟩ := step_running_arch hr hstep (hfetch.trans (List.getElem?_eq_getElem hlt))
  obtain ⟨-, -, -, -, hsame | ⟨-, hhalted⟩ | ⟨e, hfaulted⟩⟩ := instructionsLeaveTheRestOfTheBlock _ s u hx
  · simp [hphase, hsame, hr]
  · simp [hphase, hhalted]
  · simp [hphase, hfaulted]

/-- Settles O35: the step takes over Halt's stop, up to the trace. -/
theorem haltStopsTheRun : Obligations.HaltStopsTheRun := by
  intro s p hr hp hi
  obtain ⟨tr, hstep⟩ := step_of_exec hr ((fetch_of_program hp).trans hi) (exec_halt s)
  exact ⟨_, _, exec_halt s, hstep, rfl, rfl⟩

/-- Settles O36: the instruction raises its row's error, and the observer passes a failed step on. -/
theorem errorStopsTheRunWithTheLastGoodState : Obligations.ErrorStopsTheRunWithTheLastGoodState := by
  intro s p i e hr hp hi hlen herr
  have hraises : exec i s = .next { s with phase := .faulted e } := raises_of_errorTable hlen herr
  rw [step_fetch_some hr ((fetch_of_program hp).trans hi), hraises]
  exact ⟨observe_faulted rfl, rfl⟩

/-- Settles O33: the step is the observer's answer to the instruction at position pc, one equation of it a clause. -/
theorem stepRunsTheInstructionAtPc : Obligations.StepRunsTheInstructionAtPc := by
  intro s p i hr hp hi
  rw [step_fetch_some hr ((fetch_of_program hp).trans hi)]
  obtain ⟨x, q, hx, -⟩ := instructionsDependOnTheStateAlone i s s rfl rfl
  refine ⟨fun hm => ?_, fun hm t ht => ?_⟩
  · rw [hx]
    exact observe_silent hm
  · have hmode : t.mode = .observed := by
      obtain ⟨-, -, hmode, -, -⟩ := instructionsLeaveTheRestOfTheBlock i s t ht
      rw [hmode, hm]
    rw [ht]
    exact ⟨fun ⟨_, he⟩ => observe_faulted he, observe_emit hmode⟩

/-- Settles O38: every move of a step and every action of the host but reset needs a phase that is not terminal. -/
theorem terminalPhasesAreLeftByResetOnly : Obligations.TerminalPhasesAreLeftByResetOnly := by
  intro s hs
  refine ⟨fun t hstep => ?_, fun act t hact => ?_⟩
  · cases step_cases hstep with
    | wait hp => rcases hp with hp | hp <;> simp [hp] at hs
    | decodeFails hp | decoded hp | ends hp | runs hp | emits hp => simp [hp] at hs
  · cases hostAct_cases hact with
    | reset => exact ⟨rfl, rfl⟩
    | present hp | launch hp | start hp => simp [hp] at hs

/-- Settles O41: both phases wait for the host. -/
theorem nothingHappensUntilTheHostActs : Obligations.NothingHappensUntilTheHostActs := by
  rintro s (hp | hp)
  · rw [step, hp, waitForHost]
  · rw [step, hp, waitForHost]

/-- Settles O42: the decoder's answer decides between the phases, and the length of the Program on the refusal. -/
theorem decodingIsAllOrNothing : Obligations.DecodingIsAllOrNothing := by
  intro s bytes hp
  rw [step_decoding hp]
  refine ⟨fun e hd => ⟨?_, rfl⟩, fun p hd => ⟨fun hfits => ?_, fun hlong => ?_⟩⟩
  · rw [decodeInput, hd]
    rfl
  · rw [decodeInput, hd]
    exact if_pos hfits
  · rw [decodeInput, hd]
    exact if_neg (Nat.not_le.mpr hlong)

/-- Settles O37: each move of a step is one of the block in another mode, and the trace takes up the difference. -/
theorem observerInfluencesNothing : Obligations.ObserverInfluencesNothing := by
  intro s t m hstep
  -- an instruction in the other mode answers the same, up to the mode and the trace
  have run {i : Instr} {u : State} (hr : s.phase = .running) (hf : fetch s = some i) (hx : exec i s = .next u) :
      ∃ tr, step (s.setMode m) = .next { u with mode := m, trace := tr } :=
    step_of_exec (s := s.setMode m) hr hf (exec_setMode hx m)
  cases step_cases hstep with
  | wait hp => exact ⟨s.trace, nothingHappensUntilTheHostActs (s.setMode m) hp⟩
  | decodeFails hp hd =>
    obtain ⟨hfail, -⟩ := decodingIsAllOrNothing (s.setMode m) _ hp
    exact ⟨s.trace, (hfail _ hd).1⟩
  | decoded hp hd hfits =>
    obtain ⟨-, hok⟩ := decodingIsAllOrNothing (s.setMode m) _ hp
    exact ⟨s.trace, (hok _ hd).1 hfits⟩
  | ends hr hf => exact ⟨s.trace, step_fetch_none (s := s.setMode m) hr hf⟩
  | runs hr hf hx => exact run hr hf hx
  | emits hr hf hx =>
    obtain ⟨tr, htr⟩ := run hr hf hx
    exact ⟨tr, htr⟩

end Sys2Proof.Machine
end

section
/-! The error table (60_exceptions.md): where its row of R206 gives no error an instruction completes, the converse of
`raises_of_errorTable`, and a failed step leaves everything but the phase (R207). -/

namespace Sys2Proof.Machine

/-! ### The rows of the table without an error -/

/-- An entry of the table gives no error when its test fails and the entries after it give none. -/
theorem entry_eq_none {p : Prop} [Decidable p] {e : ExecutionError} {rest : Option ExecutionError} :
    (if p then some e else rest) = none ↔ ¬p ∧ rest = none := by
  split <;> simp [*]

section
variable {i : Instr} {s : State}

/-- A row of arity 1 without an error has its operand on the stack. -/
theorem operand_of_unary_row
    (h : (if s.arch.stack.length < 1 then some ExecutionError.insufficientArguments else none) = none) :
    ∃ r a, s.arch.stack = r ++ [a] := by
  obtain ⟨hlong, -⟩ := entry_eq_none.mp h
  exact stack_one (Nat.not_lt.mp hlong)

/-- A row of arity 2 without an error has both operands on the stack, and nothing in its further entries. -/
theorem operands_of_binary_row {rest : Option ExecutionError}
    (h : (if s.arch.stack.length < 2 then some .insufficientArguments else rest) = none) :
    (∃ r b a, s.arch.stack = r ++ [b, a]) ∧ rest = none := by
  obtain ⟨hlong, hrest⟩ := entry_eq_none.mp h
  exact ⟨stack_two (Nat.not_lt.mp hlong), hrest⟩

/-- A result of the operation completes the two-operand form at every pc, the top included (log 4). -/
theorem IsBinary.exists_completes_of_ok {op : Word → Word → Except ExecutionError Word} (hi : IsBinary i op)
    {r : List Word} {b a w : Word} (hs : s.arch.stack = r ++ [b, a]) (hlen : s.arch.stack.length ≤ stackCap)
    (hop : op a b = .ok w) : ∃ x, Completes i s x := by
  refine ⟨{ s.arch with stack := r ++ [w], pc := nextPc s.arch.pc }, ?_⟩
  rw [Completes, hi, binaryStep_append hs hlen, hop]
  rfl

/-- With an operation that cannot fail, both operands are enough (R165). -/
theorem IsBinary.exists_completes_of_total_row {f : Word → Word → Word} (hi : IsBinary i fun a b => .ok (f a b))
    (hlen : s.arch.stack.length ≤ stackCap)
    (h : (if s.arch.stack.length < 2 then some ExecutionError.insufficientArguments else none) = none) :
    ∃ x, Completes i s x := by
  obtain ⟨⟨r, b, a, hs⟩, -⟩ := operands_of_binary_row h
  exact hi.exists_completes_of_ok hs hlen rfl

/-- With a checked operation (R140), both operands are enough where they do not overflow. -/
theorem IsBinary.exists_completes_of_checked_row {op : Word → Word → Except ExecutionError Word} (hi : IsBinary i op)
    {overflows : Nat → Nat → Bool} {Result : Word → Word → Word → Prop}
    (hfits : ∀ {a b : Word}, overflows a.toNat b.toNat = false → ∃ w, Result a b w ∧ op a b = .ok w)
    (hlen : s.arch.stack.length ≤ stackCap)
    (h : (if s.arch.stack.length < 2 then some ExecutionError.insufficientArguments
      else if overflows (s.arch.stack.reverse.getD 0 0).toNat (s.arch.stack.reverse.getD 1 0).toNat then
        some .arithmeticOverflow else none) = none) :
    ∃ x, Completes i s x := by
  obtain ⟨⟨r, b, a, hs⟩, hrest⟩ := operands_of_binary_row h
  obtain ⟨hno, -⟩ := entry_eq_none.mp hrest
  obtain ⟨w, -, hop⟩ := hfits (a := a) (b := b) (by simpa [hs] using hno)
  exact hi.exists_completes_of_ok hs hlen hop

/-- Where the table gives no error, an instruction other than Halt completes (R206). -/
theorem exists_completes_of_errorTable (hlen : s.arch.stack.length ≤ stackCap) (hi : i ≠ .halt)
    (h : errorTable i s.arch = none) : ∃ x, Completes i s x := by
  cases i with
  | halt => exact absurd rfl hi
  | nop => exact ⟨_, exec_nop s⟩
  | set w => exact ⟨_, exec_set w s⟩
  | read | write | jumpIf => cases h
  | push =>
    obtain ⟨hroom, -⟩ := entry_eq_none.mp h
    exact ⟨_, execPush_room (lt_of_le_of_ne hlen hroom)⟩
  | pop =>
    obtain ⟨hne, -⟩ := entry_eq_none.mp h
    obtain ⟨r, v, hs⟩ := stack_one (Nat.one_le_iff_ne_zero.mpr hne)
    exact ⟨_, execPop_append hs⟩
  | load =>
    obtain ⟨r, a, hs⟩ := operand_of_unary_row h
    exact ⟨_, execLoad_append hs hlen⟩
  | jump =>
    obtain ⟨r, a, hs⟩ := operand_of_unary_row h
    exact ⟨_, execJump_append hs⟩
  | not =>
    obtain ⟨r, a, hs⟩ := operand_of_unary_row h
    exact ⟨_, execNot_append hs hlen⟩
  | store =>
    obtain ⟨⟨r, v, a, hs⟩, -⟩ := operands_of_binary_row h
    exact ⟨_, execStore_append hs⟩
  | cmp => exact isBinary_cmp.exists_completes_of_total_row hlen h
  | and => exact isBinary_and.exists_completes_of_total_row hlen h
  | or => exact isBinary_or.exists_completes_of_total_row hlen h
  | xor => exact isBinary_xor.exists_completes_of_total_row hlen h
  | add =>
    exact isBinary_add.exists_completes_of_checked_row (overflows := fun a b => 2 ^ 64 ≤ a + b)
      (fun hno => checkedAdd_of_lt (Nat.not_le.mp (of_decide_eq_false hno))) hlen h
  | sub =>
    exact isBinary_sub.exists_completes_of_checked_row (overflows := fun a b => a < b)
      (fun hno => checkedSub_of_le (Nat.not_lt.mp (of_decide_eq_false hno))) hlen h
  | mul =>
    exact isBinary_mul.exists_completes_of_checked_row (overflows := fun a b => 2 ^ 64 ≤ a * b)
      (fun hno => checkedMul_of_lt (Nat.not_le.mp (of_decide_eq_false hno))) hlen h
  | div =>
    exact isBinary_div.exists_completes_of_checked_row (overflows := fun _ b => b = 0)
      (fun hno => checkedDiv_of_ne_zero (of_decide_eq_false hno)) hlen h
  | mod =>
    exact isBinary_mod.exists_completes_of_checked_row (overflows := fun _ b => b = 0)
      (fun hno => checkedMod_of_ne_zero (of_decide_eq_false hno)) hlen h

end

/-! ### Exceptions: the obligations -/

/-- Settles O22: each row's error is the one raised, and a row without an error lets Halt stop the run and every other
instruction complete in the phase it was stepped in. -/
theorem errorTableIsExact : Obligations.ErrorTableIsExact := by
  intro i s hlen hr
  refine ⟨fun e => raises_of_errorTable hlen, fun hnone => ?_⟩
  by_cases hi : i = .halt
  · subst hi
    exact ⟨_, exec_halt s, .inr rfl⟩
  · obtain ⟨x, hx⟩ := exists_completes_of_errorTable hlen hi hnone
    exact ⟨_, hx, .inl hr⟩

/-- Settles O23: of the three ways a step goes, only a raised error ends in FAULTED, and it moves the phase alone. -/
theorem failedStepChangesNothing : Obligations.FailedStepChangesNothing := by
  intro i s t e hr hx ht
  rcases exec_cases hx with ⟨a, rfl, -⟩ | ⟨e', rfl⟩ | ⟨-, rfl⟩
  · simp [hr] at ht
  · cases ht
    rfl
  · simp at ht

end Sys2Proof.Machine
end

section
/-! Reset and the host (70_reset_and_hazards.md): one equation for each action of the host in the phase that takes it,
the refusal in a phase that takes none, and what reset, the setup and a launch State lead to. -/

namespace Sys2Proof.Machine

/-! ### The default memory (R38) -/

theorem not_hasKey_default (a : Word) : ¬hasKey Arch.default.mem a := List.not_mem_nil

theorem memRead_default (a : Word) : memRead Arch.default.mem a = 0 := rfl

/-! ### The host's actions, by phase (R230, R232, R236, R238) -/

theorem hostAct_reset (s : State) : hostAct .reset s = .next { State.reset with cfg := s.cfg } := rfl

section
variable {s : State}

theorem hostAct_present {bytes : List Byte} (h : s.phase = .idle) (hb : inputFits s.config bytes) :
    hostAct (.present bytes) s = .next (s.setPhase (.decoding bytes)) := by
  simp only [hostAct, hostPresent, h]
  exact if_pos hb

theorem hostAct_launch (h : s.phase = .ready) (a : Arch) :
    hostAct (.launch a) s = if archValid a then .next (s.setArch a) else .refused .launchStateNotValid := by
  simp only [hostAct, hostLaunch, h]

theorem hostAct_start (h : s.phase = .ready) (m : RunMode) :
    hostAct (.start m) s = .next ((s.setMode m).setPhase .running) := by
  simp only [hostAct, hostStart, h]

/-- Outside IDLE and READY every action but reset is refused, whatever it brings (R180, R240). -/
theorem hostAct_refused {act : HostAction} (hidle : s.phase ≠ .idle) (hready : s.phase ≠ .ready)
    (hact : act ≠ .reset) : hostAct act s = .refused .hostActionNotTaken := by
  cases act with
  | reset => exact absurd rfl hact
  -- `hidle` and `hready` rule out the one phase that takes the action
  | present => simp only [hostAct, hostPresent]
  | launch => simp only [hostAct, hostLaunch]
  | start => simp only [hostAct, hostStart]

end

/-! ### Reset and the host: the obligations -/

/-- Settles O45: READY takes a launch State that is valid, and the stack's bound is half of that. -/
theorem launchStateIsAnyValidState : Obligations.LaunchStateIsAnyValidState := by
  intro s a h
  rw [hostAct_launch h]
  refine ⟨fun hlen hmem => if_pos ⟨hlen, hmem⟩, fun hdeep => if_neg fun hvalid => ?_⟩
  obtain ⟨hlen, -⟩ := hvalid
  exact Nat.not_le.mpr hdeep hlen

/-- Settles O46: the three moves of the setup one after the other; none of them touches the default State. -/
theorem setupLeadsFromResetToTheRun : Obligations.SetupLeadsFromResetToTheRun := by
  intro c bytes p m hinput hdecode hprogram
  have hpresent := hostAct_present (s := { State.reset with cfg := c }) rfl hinput
  obtain ⟨-, hok⟩ := decodingIsAllOrNothing ({ State.reset with cfg := c }.setPhase (.decoding bytes)) bytes rfl
  obtain ⟨hready, -⟩ := hok p hdecode
  exact ⟨_, _, _, hpresent, hready hprogram, hostAct_start rfl m, rfl, rfl, rfl, rfl, rfl⟩

/-- Settles O43: the state that reset answers differs from `State.reset` in the parameters alone. -/
theorem resetGivesTheDefaultState : Obligations.ResetGivesTheDefaultState := by
  intro s
  refine ⟨_, hostAct_reset s, fun u hu => ?_⟩
  obtain ⟨c, rfl⟩ : ∃ c, u = { State.reset with cfg := c } := by
    rcases hu with rfl | rfl
    · exact ⟨s.cfg, rfl⟩
    · exact ⟨OpenParams.default, rfl⟩
  exact ⟨rfl, rfl, rfl, rfl, rfl, fun a => ⟨memRead_default a, not_hasKey_default a⟩⟩

/-- Settles O44: neither phase is IDLE or READY. -/
theorem hostIsShutOutOfDecodingAndRunning : Obligations.HostIsShutOutOfDecodingAndRunning := by
  intro s act hs
  have hphase : s.phase ≠ .idle ∧ s.phase ≠ .ready := by
    rcases hs with ⟨bytes, hp⟩ | hp <;> simp [hp]
  obtain ⟨hidle, hready⟩ := hphase
  exact or_iff_not_imp_left.mpr (hostAct_refused hidle hready)

end Sys2Proof.Machine
end
